-- ==== Sys2Proof/Word.lean ====
section
/-! DEFINITION. The word, the register number and the register field (00_scope.md R13, R14; 10_state.md R18, R20). -/

namespace Sys2Proof

/-- A Word: "a 32-bit signed integer; the sole unit of storage and instruction encoding" (00_scope.md R11, R14).
The bit vector is `bits(v)`; its signed reading is `sint`. -/
abbrev Word := BitVec 32

/-- The number of a general register, 0 to 7 (10_state.md R18). -/
abbrev Reg := Fin 8

/-- A register field of an instruction word: 4 bits, 0 to 15, of which 0 to 7 name a register (10_state.md R20). -/
abbrev RegField := BitVec 4

/-- `sint(p)`: the signed value of a 32-bit pattern (00_scope.md R14). -/
abbrev sint (w : Word) : Int := w.toInt

/-- The field that names register `r`: the register number itself (30_encoding.md R45). -/
def fieldOf (r : Reg) : RegField := BitVec.ofNat 4 r.val

end Sys2Proof
end

