-- ==== Sys2Proof/Syntax.lean ====
section
/-! DEFINITION. The instructions: one constructor per row of spec/opcode_table.json (30_encoding.md R47). -/

namespace Sys2Proof

/-- A decoded instruction. `a1` and `a2` are the fields arg1 and arg2 as the word holds them, 0 to 15
(30_encoding.md R44): a used field of 8 to 15 is met when the instruction runs (40_cycle.md R60). The fields an opcode
does not use (both of halt, arg2 of loadc) are ignored (R48) and are no part of the instruction; the constant of
loadc is a data word its own operation fetches (R42, R49). -/
inductive Instr where
  | halt
  | load (a1 a2 : RegField)
  | loadc (a1 : RegField)
  | store (a1 a2 : RegField)
  | add (a1 a2 : RegField)
  | mul (a1 a2 : RegField)
  | sub (a1 a2 : RegField)
  | div (a1 a2 : RegField)
  | and (a1 a2 : RegField)
  | or (a1 a2 : RegField)
  | not (a1 a2 : RegField)
  | lshift (a1 a2 : RegField)
  | rshift (a1 a2 : RegField)
  | bwc (a1 a2 : RegField)
  | bwd (a1 a2 : RegField)
  | ifnz (a1 a2 : RegField)
deriving DecidableEq, Repr

end Sys2Proof
end

