-- ==== Sys2Proof/WellFormed.lean ====
section
/-! DEFINITION. Which instructions are well formed: "0-7 valid" for every field the opcode uses (10_state.md R20,
30_encoding.md R43). These are the instructions the assembler can emit (30_encoding.md R52). -/

namespace Sys2Proof

/-- A field that names a register (10_state.md R20). -/
def validField (f : RegField) : Bool := f.toNat < 8

/-- The register fields an instruction uses, arg1 first (10_state.md R19, R20). -/
def Instr.usedFields : Instr → List RegField
  | .halt => []
  | .load a1 a2 => [a1, a2]
  | .loadc a1 => [a1]
  | .store a1 a2 => [a1, a2]
  | .add a1 a2 => [a1, a2]
  | .mul a1 a2 => [a1, a2]
  | .sub a1 a2 => [a1, a2]
  | .div a1 a2 => [a1, a2]
  | .and a1 a2 => [a1, a2]
  | .or a1 a2 => [a1, a2]
  | .not a1 a2 => [a1, a2]
  | .lshift a1 a2 => [a1, a2]
  | .rshift a1 a2 => [a1, a2]
  | .bwc a1 a2 => [a1, a2]
  | .bwd a1 a2 => [a1, a2]
  | .ifnz a1 a2 => [a1, a2]

/-- Every field the opcode uses names a register. -/
def Instr.wellFormed (i : Instr) : Bool := i.usedFields.all validField

end Sys2Proof
end

