-- ==== Sys2Proof/Decode.lean ====
section
/-! DEFINITION. Decoding a word into an instruction, and after it the encoder (30_encoding.md R43 to R49). -/

namespace Sys2Proof

/-- Why a word is no instruction. -/
inductive DecodeReject where
  /-- Some bit of 31:12 is set: the word is Unrecognized (30_encoding.md R44, R48). -/
  | unrecognized
deriving DecidableEq, Repr

/-- `ir[31:12]` (30_encoding.md R43, R44). -/
def upperBits (w : Word) : BitVec 20 := w.extractLsb' 12 20

/-- `op = ir[11:8]` (30_encoding.md R43, R44). -/
def opcodeField (w : Word) : BitVec 4 := w.extractLsb' 8 4

/-- `a1 = ir[7:4]` (30_encoding.md R43, R44). -/
def arg1Field (w : Word) : RegField := w.extractLsb' 4 4

/-- `a2 = ir[3:0]` (30_encoding.md R43, R44). -/
def arg2Field (w : Word) : RegField := w.extractLsb' 0 4

/-- The opcode map in the order of the opcode values 0 to 15 (30_encoding.md R47). -/
def opcodeMap : Vector (RegField → RegField → Instr) 16 :=
  #v[fun _ _ => .halt, .load, fun a1 _ => .loadc a1, .store,
     .add, .mul, .sub, .div,
     .and, .or, .not, .lshift,
     .rshift, .bwc, .bwd, .ifnz]

/-- `Instr(op, a1, a2)`: the row of the opcode map (30_encoding.md R44, R47). -/
def instrOf (op : BitVec 4) (a1 a2 : RegField) : Instr := opcodeMap[op.toNat] a1 a2

/-- Step 2 of every step (30_encoding.md R44): total on every word. -/
def decode (w : Word) : Except DecodeReject Instr :=
  if upperBits w = 0 then .ok (instrOf (opcodeField w) (arg1Field w) (arg2Field w))
  else .error .unrecognized

/-- Decoding an instruction given by the `nbits` low bits of `w`, numbered as spec/opcode_table.json numbers them: the
store holds words (20_memory.md R33), so the first word is bits 31:0. The second word of loadc is data, not decoded (R42). -/
def decodeTableWord (nbits w : Nat) : Option Instr :=
  match decode (BitVec.ofNat 32 (w % 2 ^ nbits)) with
  | .ok i => some i
  | .error _ => none

/-- The opcode value of an instruction (30_encoding.md R47). -/
def Instr.opcode : Instr → BitVec 4
  | .halt => 0
  | .load _ _ => 1
  | .loadc _ => 2
  | .store _ _ => 3
  | .add _ _ => 4
  | .mul _ _ => 5
  | .sub _ _ => 6
  | .div _ _ => 7
  | .and _ _ => 8
  | .or _ _ => 9
  | .not _ _ => 10
  | .lshift _ _ => 11
  | .rshift _ _ => 12
  | .bwc _ _ => 13
  | .bwd _ _ => 14
  | .ifnz _ _ => 15

/-- The pattern `00000000000000000000 oooo aaaa bbbb` (30_encoding.md R43, R46). -/
def packWord (op : BitVec 4) (a1 a2 : RegField) : Word := 0#20 ++ op ++ a1 ++ a2

/-- The instruction word of an instruction; a field the opcode does not use is written as 0 (30_encoding.md R46 to R48). -/
def encode : Instr → Word
  | .halt => packWord 0 0 0
  | .load a1 a2 => packWord 1 a1 a2
  | .loadc a1 => packWord 2 a1 0
  | .store a1 a2 => packWord 3 a1 a2
  | .add a1 a2 => packWord 4 a1 a2
  | .mul a1 a2 => packWord 5 a1 a2
  | .sub a1 a2 => packWord 6 a1 a2
  | .div a1 a2 => packWord 7 a1 a2
  | .and a1 a2 => packWord 8 a1 a2
  | .or a1 a2 => packWord 9 a1 a2
  | .not a1 a2 => packWord 10 a1 a2
  | .lshift a1 a2 => packWord 11 a1 a2
  | .rshift a1 a2 => packWord 12 a1 a2
  | .bwc a1 a2 => packWord 13 a1 a2
  | .bwd a1 a2 => packWord 14 a1 a2
  | .ifnz a1 a2 => packWord 15 a1 a2

/-- How many words an instruction occupies: two for loadc, one for every other (30_encoding.md R42, R49). -/
def Instr.lengthWords : Instr → Nat
  | .loadc _ => 2
  | _ => 1

/-- The bits of an instruction word its opcode reads: all but bits 7:0 of halt and bits 3:0 of loadc (30_encoding.md
R48). -/
def Instr.significant : Instr → Word
  | .halt => 0xFFFFFF00
  | .loadc _ => 0xFFFFFFF0
  | _ => 0xFFFFFFFF

end Sys2Proof
end

