-- ==== Sys2Proof/Config.lean ====
section
/-! DEFINITION. The parameters that are fixed for one machine (00_scope.md R12). `INIT_MEM`, `FUEL` and `ASM_EXTENSION`
are arguments of the operations that use them (createStore, driver, translateFile). -/

namespace Sys2Proof

/-- The parameters a machine is built with. State carries them, so that a statement over every state is a statement
for every parameter (log entry 3); no step and no host request changes them. -/
structure Config where
  /-- `CAPACITY`: the number of words of the WordStore (00_scope.md R12, 20_memory.md R32). -/
  capacity : Nat
  /-- `BASE`: the value of the PC after reset (00_scope.md R12, 10_state.md R21). -/
  base : Word
deriving DecidableEq, Repr

/-- The values this hardware takes by default: CAPACITY 256, BASE 0 (00_scope.md R12). -/
def Config.standard : Config := { capacity := 256, base := 0 }

/-- The range of CAPACITY: 1 <= CAPACITY <= 2^31 - 1 (00_scope.md R12, 20_memory.md R32). -/
abbrev Config.Valid (c : Config) : Prop := 1 ≤ c.capacity ∧ c.capacity ≤ 2147483647

end Sys2Proof
end

