-- ==== Sys2Proof/Machine/State.lean ====
section
/-! DEFINITION. The state of the machine (10_state.md), as plain data, and the state after reset (70_reset_and_hazards.md
R104). -/

namespace Sys2Proof.Machine

/-- Which access of a step an address belongs to (60_exceptions.md R88, R89). -/
inductive Access where
  | fetch
  | loadcImm
  | load
  | store
deriving DecidableEq, Repr

/-- Which register field of an instruction word (60_exceptions.md R88, R91). -/
inductive ArgField where
  | arg1
  | arg2
deriving DecidableEq, Repr

/-- A fatal fault of a step (10_state.md R26, 60_exceptions.md R88 to R91). -/
inductive Fault where
  /-- Raised by fetchWord (the fetch of a step and the constant fetch of loadc), load and store at an address outside
  [0, CAPACITY), with the access and the address (60_exceptions.md R89). Safe: it is the outcome the spec gives. -/
  | addressOutOfRange (access : Access) (address : Word)
  /-- Raised by checkArg for every instruction but halt when a used field holds 8 to 15, with the field and its value
  (60_exceptions.md R91). Safe: the decision D5 of the spec stops where an engine might compute (log entry 7). -/
  | registerIndexError (field : ArgField) (value : RegField)
deriving DecidableEq, Repr

/-- Why a halted machine halted (10_state.md R26). -/
inductive HaltKind where
  | op0
  | unrecognized
deriving DecidableEq, Repr

/-- The run status (10_state.md R26). -/
inductive Status where
  | running
  | halted (kind : HaltKind)
  | faulted (fault : Fault)
deriving DecidableEq, Repr

/-- A diagnostic event (60_exceptions.md R94). -/
inductive Diagnostic where
  | divideByZero
  | unrecognizedOpcode
deriving DecidableEq, Repr

/-- Why a step is refused. -/
inductive Refusal where
  /-- Raised by no arm of exec: it is the name an instruction without a meaning would be rejected by. Safe. -/
  | notModelled (mnemonic : String)
  /-- Raised by step when `status` is not Running: "the block refuses it and nothing changes" (10_state.md R26, 40_cycle.md
  R58). Unsafe only in that the source's engine, stepped after a halt, would go on (log entry 5). -/
  | notRunning (status : Status)
deriving DecidableEq, Repr

/-- One word of the WordStore at its address. The word is the smallest addressable unit (20_memory.md R33, R34; log
entry 1). -/
abbrev Cell := Nat × Word

/-- The contents of the WordStore: the words that differ from what an unlisted address reads as, in rising order of
address (Memory.wf). -/
abbrev Memory := List Cell

/-- The state of the machine: `(registers[8], PC, IR, WordStore)`, `status` (10_state.md R26, R27), the parameters of
this machine, and the event on the output port `diag`. -/
structure State where
  /-- `x[0]` to `x[7]` (10_state.md R18). -/
  regs : Vector Word 8
  /-- The PC, a signed 32-bit word (10_state.md R21). -/
  pc : Word
  /-- The IR: the most recently fetched word (10_state.md R24). -/
  ir : Word
  /-- The run status (10_state.md R26). -/
  status : Status
  /-- The WordStore (20_memory.md R29 to R32). -/
  mem : Memory
  /-- CAPACITY and BASE of this machine (00_scope.md R12; log entry 3). -/
  cfg : Config
  /-- The event the last accepted step put on the `diag` port, if any: an output, no state of the spec's (10_state.md R28,
  60_exceptions.md R94; log entry 6). -/
  diag : Option Diagnostic
deriving DecidableEq, Repr

/-- The machine right after reset (70_reset_and_hazards.md R104) with the default parameters and nothing loaded. -/
def State.reset : State :=
  { regs := Vector.replicate 8 0
    pc := Config.standard.base
    ir := 0
    status := .running
    mem := []
    cfg := Config.standard
    diag := none }

end Sys2Proof.Machine
end

