-- ==== Sys2Proof/Machine/Ops.lean ====
section
/-! DEFINITION. The named operations over memory, registers and status: the primitives of 00_scope.md R15, the accesses of
20_memory.md, the fatal fault of 60_exceptions.md R90 and the reset of 70_reset_and_hazards.md R104. -/

namespace Sys2Proof.Machine

/-- What a meaning answers. -/
abbrev Result := Host.Outcome State Fault Refusal

/-! The WordStore as data -/

/-- What an address that no entry lists reads as: one instance of INIT_MEM (20_memory.md R32; log entry 2). -/
def Memory.unlisted (_a : Nat) : Word := 0

/-- The word at an address. -/
def Memory.read : Memory → Nat → Word
  | [], a => Memory.unlisted a
  | (k, v) :: rest, a => if k = a then v else Memory.read rest a

/-- The contents with an entry for the address, in its place in the rising order. -/
def Memory.put : Memory → Nat → Word → Memory
  | [], a, v => [(a, v)]
  | (k, w) :: rest, a, v =>
    if a < k then (a, v) :: (k, w) :: rest
    else if a = k then (a, v) :: rest
    else (k, w) :: Memory.put rest a v

/-- The contents without an entry for the address. -/
def Memory.drop : Memory → Nat → Memory
  | [], _ => []
  | (k, w) :: rest, a => if k = a then Memory.drop rest a else (k, w) :: Memory.drop rest a

/-- The contents with the word at the address replaced (20_memory.md R30), in the canonical form. -/
def Memory.write (m : Memory) (a : Nat) (v : Word) : Memory :=
  if v = Memory.unlisted a then Memory.drop m a else Memory.put m a v

/-- The contents with the words written to consecutive addresses from `a` (30_encoding.md R56). -/
def Memory.writeAll : Memory → Nat → List Word → Memory
  | m, _, [] => m
  | m, a, w :: ws => Memory.writeAll (Memory.write m a w) (a + 1) ws

/-- The contents of a store of `capacity` words that holds `f a` at every address `a`. -/
def Memory.ofFn (capacity : Nat) (f : Nat → Word) : Memory :=
  Memory.writeAll [] 0 ((List.range capacity).map f)

/-- The canonical form: addresses strictly rising, and no entry equal to what an unlisted address reads as. -/
abbrev Memory.wf (m : Memory) : Prop :=
  m.Pairwise (fun c d => c.1 < d.1) ∧ ∀ c ∈ m, c.2 ≠ Memory.unlisted c.1

/-- Every entry lies inside the store: "address space is [0, capacity)" (20_memory.md R32). -/
abbrev Memory.within (m : Memory) (capacity : Nat) : Prop := ∀ c ∈ m, c.1 < capacity

/-! Registers -/

/-- `x[r]` (10_state.md R18). -/
def State.reg (s : State) (r : Reg) : Word := s.regs[r]

/-- `x[r] <- v` (10_state.md R18). -/
def State.setReg (s : State) (r : Reg) (v : Word) : State := { s with regs := s.regs.set r v }

/-- `pc <- v` (00_scope.md R15). -/
def State.setPc (s : State) (v : Word) : State := { s with pc := v }

/-! Memory accesses of the block -/

/-- `0 <= a < CAPACITY` for the signed word `a` (20_memory.md R29). -/
abbrev InStore (s : State) (a : Word) : Prop := 0 ≤ sint a ∧ sint a < s.cfg.capacity

/-- `MemRead(a, 1)` (20_memory.md R29). -/
def memRead (access : Access) (a : Word) (s : State) : Except Fault Word :=
  if InStore s a then .ok (s.mem.read a.toNat) else .error (.addressOutOfRange access a)

/-- `MemWrite(a, 1, v)` (20_memory.md R30). -/
def memWrite (access : Access) (a v : Word) (s : State) : Except Fault State :=
  if InStore s a then .ok { s with mem := s.mem.write a.toNat v } else .error (.addressOutOfRange access a)

/-- `w <- MemRead(pc, 1); ir <- w; pc <- pc + 1`: the fetch of a step and the constant fetch of loadc (40_cycle.md R59,
41_memory_ops.md R67). -/
def fetchWord (access : Access) (s : State) : Except Fault State :=
  match memRead access s.pc s with
  | .ok w => .ok { s with ir := w, pc := s.pc + 1 }
  | .error f => .error f

/-- Goes on with the value, or ends the instruction with `raise` (00_scope.md R15). -/
def orRaise {α : Type} (r : Except Fault α) (k : α → Result) : Result :=
  match r with
  | .ok v => k v
  | .error f => .fault f

/-! Status and diagnostics -/

/-- `halt(K)` (00_scope.md R15, 40_cycle.md R61, R62). -/
def haltWith (kind : HaltKind) (s : State) : State := { s with status := .halted kind }

/-- `diag(K)`: an event on the `diag` port and nothing else (60_exceptions.md R94). -/
def emit (d : Diagnostic) (s : State) : State := { s with diag := some d }

/-- The `diag` port with no event on it: how every accepted step begins (log entry 6). -/
def quiet (s : State) : State := { s with diag := none }

/-- Taking a fatal fault (60_exceptions.md R90): of the state before the step only `status` changes. That the step leaves
no event on the `diag` port is the model's choice (log entry 6). There is no handler, no saved register and no return (R95,
R96): only `resetBlock` leaves it. -/
def takeFault (f : Fault) (before : State) : State := { quiet before with status := .faulted f }

/-- The `reset` request (70_reset_and_hazards.md R104): the WordStore and the parameters stay, and no event is on the `diag`
port (log entry 6). -/
def resetBlock (s : State) : State :=
  { s with regs := Vector.replicate 8 0, pc := s.cfg.base, ir := 0, status := .running, diag := none }

end Sys2Proof.Machine
end

