-- ==== Sys2Proof/Machine/Cycle.lean ====
section
/-! DEFINITION. The step cycle around the dispatch: acceptance, fetch, decode, the unrecognized word, and the commit of a
fatal fault (40_cycle.md R58 to R64, 60_exceptions.md R90, R93). -/

namespace Sys2Proof.Machine

/-- The Unrecognized word: `diag(UnrecognizedOpcode); halt(Unrecognized)` (40_cycle.md R62). -/
def haltUnrecognized (s : State) : State := haltWith .unrecognized (emit .unrecognizedOpcode s)

/-- The end of a step whose instruction answered `r`: a fatal fault keeps none of the step's writes and is latched in the
status of the state before the step (60_exceptions.md R90). -/
def commit (before : State) (r : Result) : Result :=
  match r with
  | .next t => .next t
  | .fault f => .next (takeFault f before)
  | .refused q => .refused q

/-- Steps 2 and 3 of a step, after the fetch (40_cycle.md R58, R60, R62). -/
def decodeAndRun (run : Instr → State → Result) (before fetched : State) : Result :=
  match decode fetched.ir with
  | .ok i => commit before (run i fetched)
  | .error .unrecognized => .next (haltUnrecognized fetched)

/-- `step()` over a dispatch (40_cycle.md R58): refused unless Running; then fetch, decode and dispatch. -/
def stepWith (run : Instr → State → Result) (s : State) : Result :=
  if s.status = .running then
    match fetchWord .fetch (quiet s) with
    | .ok t => decodeAndRun run s t
    | .error f => .next (takeFault f s)
  else .refused (.notRunning s.status)

/-- `s` with the words of an instruction (the bits of `w`, the first word in bits 31:0) at the PC: as much of the two
words of the longest instruction as lies inside the store. -/
def placeAtPc (s : State) (w : Nat) : State :=
  match memWrite .store s.pc (BitVec.ofNat 32 w) s with
  | .error _ => s
  | .ok t =>
    match memWrite .store (s.pc + 1) (BitVec.ofNat 32 (w / 2 ^ 32)) t with
    | .error _ => t
    | .ok u => u

end Sys2Proof.Machine
end

