-- ==== Sys2Proof/Machine/Flags.lean ====
section
/-! DEFINITION. The machine has no flags (10_state.md R27): what stands in their place is the test of a word for nonzero and
the word 0 or 1 that a truth value is written as (43_logic_shift.md R76 to R78, 44_control.md R85). -/

namespace Sys2Proof.Machine

/-- "any nonzero word counts as true, including negative words" (43_logic_shift.md R76). -/
def nonzero (w : Word) : Bool := w != 0

/-- The word a truth value is written as (43_logic_shift.md R83). -/
def ofTruth (b : Bool) : Word := if b then 1 else 0

end Sys2Proof.Machine
end

