-- ==== Sys2Proof/Machine/Alu.lean ====
section
/-! DEFINITION. The values the execution unit computes, operands read as signed integers and the exact result narrowed at the
end (42_arithmetic.md, 43_logic_shift.md). -/

namespace Sys2Proof.Machine

/-- `wrap32(n)`: the word congruent to `n` modulo 2^32 (00_scope.md R14, 42_arithmetic.md R74). -/
def wrap32 (n : Int) : Word := BitVec.ofInt 32 n

/-- `wrap32(x + y)` (42_arithmetic.md R70). -/
def aluAdd (x y : Word) : Word := wrap32 (sint x + sint y)

/-- `wrap32(x * y)` (42_arithmetic.md R71). -/
def aluMul (x y : Word) : Word := wrap32 (sint x * sint y)

/-- `wrap32(x - y)` (42_arithmetic.md R72). -/
def aluSub (x y : Word) : Word := wrap32 (sint x - sint y)

/-- `wrap32(trunc(x / y))`, the quotient rounded toward zero, for a nonzero `y` (42_arithmetic.md R73, R75). -/
def aluDiv (x y : Word) : Word := wrap32 (Int.tdiv (sint x) (sint y))

/-- 1 when both words are nonzero, else 0 (43_logic_shift.md R76). -/
def aluAnd (x y : Word) : Word := ofTruth (nonzero x && nonzero y)

/-- 1 when one of the words is nonzero, else 0 (43_logic_shift.md R77). -/
def aluOr (x y : Word) : Word := ofTruth (nonzero x || nonzero y)

/-- 0 when the word is nonzero, else 1 (43_logic_shift.md R78). -/
def aluNot (y : Word) : Word := ofTruth (!nonzero y)

/-- `bits(y)[30:0] : 0b0` (43_logic_shift.md R79). -/
def aluLshift (y : Word) : Word := y.extractLsb' 0 31 ++ 0#1

/-- `bits(y)[31] : bits(y)[31:1]` (43_logic_shift.md R80). -/
def aluRshift (y : Word) : Word := y.extractLsb' 31 1 ++ y.extractLsb' 1 31

/-- `bits(x) & bits(y)` (43_logic_shift.md R81). -/
def aluBwc (x y : Word) : Word := x &&& y

/-- `bits(x) | bits(y)` (43_logic_shift.md R82). -/
def aluBwd (x y : Word) : Word := x ||| y

end Sys2Proof.Machine
end

