-- ==== Sys2Proof/Machine/Operands.lean ====
section
/-! DEFINITION. The one operand form, a register named by a field (30_encoding.md R45), with the check of 10_state.md R20 and
40_cycle.md R60. -/

namespace Sys2Proof.Machine

/-- The register a field names, or the fault RegisterIndexError if it holds 8 to 15 (40_cycle.md R60, 60_exceptions.md
R91). -/
def checkArg (field : ArgField) (f : RegField) : Except Fault Reg :=
  if h : f.toNat < 8 then .ok ⟨f.toNat, h⟩ else .error (.registerIndexError field f)

/-- The operand of an opcode that uses arg1 alone (loadc). -/
def withArg1 (a1 : RegField) (k : Reg → Result) : Result := orRaise (checkArg .arg1 a1) k

/-- The operands of an opcode that uses both fields, arg1 checked before arg2 (40_cycle.md R60, 60_exceptions.md R93). -/
def withArgs (a1 a2 : RegField) (k : Reg → Reg → Result) : Result :=
  orRaise (checkArg .arg1 a1) fun d => orRaise (checkArg .arg2 a2) fun r => k d r

/-- The shape of the opcodes that write x[a1] from the values of x[a1] and x[a2] (10_state.md R19). -/
def binary (f : Word → Word → Word) (a1 a2 : RegField) (s : State) : Result :=
  withArgs a1 a2 fun d r => .next (s.setReg d (f (s.reg d) (s.reg r)))

/-- The shape of the opcodes that write x[a1] from the value of x[a2] alone (10_state.md R19). -/
def unary (f : Word → Word) (a1 a2 : RegField) (s : State) : Result :=
  withArgs a1 a2 fun d r => .next (s.setReg d (f (s.reg r)))

end Sys2Proof.Machine
end

