-- ==== Sys2Proof/Machine/Arithmetic.lean ====
section
/-! DEFINITION. add, mul, sub and div (42_arithmetic.md). -/

namespace Sys2Proof.Machine

/-- add (42_arithmetic.md R70). -/
def execAdd (a1 a2 : RegField) (s : State) : Result := binary aluAdd a1 a2 s

/-- mul (42_arithmetic.md R71). -/
def execMul (a1 a2 : RegField) (s : State) : Result := binary aluMul a1 a2 s

/-- sub (42_arithmetic.md R72). -/
def execSub (a1 a2 : RegField) (s : State) : Result := binary aluSub a1 a2 s

/-- div: a zero divisor is recovered with the diagnostic DivideByZero and no write (42_arithmetic.md R73, 60_exceptions.md
R92). -/
def execDiv (a1 a2 : RegField) (s : State) : Result :=
  withArgs a1 a2 fun d r =>
    if s.reg r = 0 then .next (emit .divideByZero s)
    else .next (s.setReg d (aluDiv (s.reg d) (s.reg r)))

end Sys2Proof.Machine
end

