-- ==== Sys2Proof/Machine/Control.lean ====
section
/-! DEFINITION. halt and if (40_cycle.md R61, 44_control.md). -/

namespace Sys2Proof.Machine

/-- halt: `status <- Halted(Op0)` and nothing else (40_cycle.md R61). -/
def execHalt (s : State) : Result := .next (haltWith .op0 s)

/-- if: `if x[a1] != 0 then pc <- x[a2]`; the target is not checked here (44_control.md R85). -/
def execIfnz (a1 a2 : RegField) (s : State) : Result :=
  withArgs a1 a2 fun c r => if nonzero (s.reg c) then .next (s.setPc (s.reg r)) else .next s

end Sys2Proof.Machine
end

