-- ==== Sys2Proof/Machine/Logic.lean ====
section
/-! DEFINITION. and, or, not, lshift, rshift, bwc and bwd (43_logic_shift.md). -/

namespace Sys2Proof.Machine

/-- and, boolean (43_logic_shift.md R76). -/
def execAnd (a1 a2 : RegField) (s : State) : Result := binary aluAnd a1 a2 s

/-- or, boolean (43_logic_shift.md R77). -/
def execOr (a1 a2 : RegField) (s : State) : Result := binary aluOr a1 a2 s

/-- not, boolean; the old value of x[a1] is not read (43_logic_shift.md R78). -/
def execNot (a1 a2 : RegField) (s : State) : Result := unary aluNot a1 a2 s

/-- lshift, by one place (43_logic_shift.md R79). -/
def execLshift (a1 a2 : RegField) (s : State) : Result := unary aluLshift a1 a2 s

/-- rshift, by one place, arithmetic (43_logic_shift.md R80). -/
def execRshift (a1 a2 : RegField) (s : State) : Result := unary aluRshift a1 a2 s

/-- bwc, bitwise and (43_logic_shift.md R81). -/
def execBwc (a1 a2 : RegField) (s : State) : Result := binary aluBwc a1 a2 s

/-- bwd, bitwise or (43_logic_shift.md R82). -/
def execBwd (a1 a2 : RegField) (s : State) : Result := binary aluBwd a1 a2 s

end Sys2Proof.Machine
end

