-- ==== Sys2Proof/Machine/MemoryFamily.lean ====
section
/-! DEFINITION. load, loadc and store (41_memory_ops.md). -/

namespace Sys2Proof.Machine

/-- load: `x[a1] <- MemRead(x[a2], 1)` (41_memory_ops.md R66). -/
def execLoad (a1 a2 : RegField) (s : State) : Result :=
  withArgs a1 a2 fun d r => orRaise (memRead .load (s.reg r) s) fun v => .next (s.setReg d v)

/-- loadc: `ir <- MemRead(pc, 1); pc <- pc + 1; x[a1] <- ir`, arg1 checked before the constant fetch (41_memory_ops.md
R67). -/
def execLoadc (a1 : RegField) (s : State) : Result :=
  withArg1 a1 fun d => orRaise (fetchWord .loadcImm s) fun t => .next (t.setReg d t.ir)

/-- store: `MemWrite(x[a1], 1, x[a2])` (41_memory_ops.md R68). -/
def execStore (a1 a2 : RegField) (s : State) : Result :=
  withArgs a1 a2 fun d r => orRaise (memWrite .store (s.reg d) (s.reg r) s) fun t => .next t

end Sys2Proof.Machine
end

