-- ==== Sys2Proof/Machine/Dispatch.lean ====
section
/-! DEFINITION. The dispatch: one arm per instruction, in the order of the opcodes (40_cycle.md R60). -/

namespace Sys2Proof.Machine

/-- Step 3 of a step: the decoded instruction selects one rule (40_cycle.md R60). The state is the one after the fetch. -/
def exec (i : Instr) (s : State) : Host.Outcome State Fault Refusal :=
  match i with
  | .halt => Sys2Proof.Machine.execHalt s
  | .load a1 a2 => Sys2Proof.Machine.execLoad a1 a2 s
  | .loadc a1 => Sys2Proof.Machine.execLoadc a1 s
  | .store a1 a2 => Sys2Proof.Machine.execStore a1 a2 s
  | .add a1 a2 => Sys2Proof.Machine.execAdd a1 a2 s
  | .mul a1 a2 => Sys2Proof.Machine.execMul a1 a2 s
  | .sub a1 a2 => Sys2Proof.Machine.execSub a1 a2 s
  | .div a1 a2 => Sys2Proof.Machine.execDiv a1 a2 s
  | .and a1 a2 => Sys2Proof.Machine.execAnd a1 a2 s
  | .or a1 a2 => Sys2Proof.Machine.execOr a1 a2 s
  | .not a1 a2 => Sys2Proof.Machine.execNot a1 a2 s
  | .lshift a1 a2 => Sys2Proof.Machine.execLshift a1 a2 s
  | .rshift a1 a2 => Sys2Proof.Machine.execRshift a1 a2 s
  | .bwc a1 a2 => Sys2Proof.Machine.execBwc a1 a2 s
  | .bwd a1 a2 => Sys2Proof.Machine.execBwd a1 a2 s
  | .ifnz a1 a2 => Sys2Proof.Machine.execIfnz a1 a2 s

end Sys2Proof.Machine
end

