-- ==== Sys2Proof/Machine/Step.lean ====
section
/-! DEFINITION. One step of the machine (40_cycle.md R58). -/

namespace Sys2Proof.Machine

/-- `step()` (40_cycle.md R58). -/
def step (s : State) : Host.Outcome State Fault Refusal := stepWith exec s

/-- `s` with the instruction whose bits are `w` stored at the PC, where step fetches (log entry 16). -/
def State.withFetchWord (s : State) (nbits w : Nat) : State := placeAtPc s (w % 2 ^ nbits)

end Sys2Proof.Machine
end

