-- ==== Sys2Proof/Machine/Assembler.lean ====
section
/-! DEFINITION. The assembler of the host side, InstructionCodec (30_encoding.md R46, R50 to R54). Text is a list of
characters; a program is a list of lines. -/

namespace Sys2Proof.Machine

/-- A whitespace-free token of a line (30_encoding.md R54). -/
abbrev Token := List Char

/-- Why a file gives no memory image (30_encoding.md R56, 60_exceptions.md R88). -/
inductive LoadError where
  /-- "mnemonic not in the 16-entry table". -/
  | unknownMnemonic
  /-- "wrong operand count for the opcode". -/
  | argumentCountError
  /-- "operand outside [0,7]", or no integer (30_encoding.md R52). -/
  | registerRangeError
  /-- A constant line or raw token that is refused (30_encoding.md R53, R55). -/
  | refusedToken
  /-- A loadc with no following line (30_encoding.md R56). -/
  | missingConstant
  /-- A line that is none of the forms of 30_encoding.md R54, such as a blank one (the decision D19 of the spec). -/
  | notAStatement
  /-- A word that would fall at an address >= CAPACITY (30_encoding.md R56). -/
  | imageTooLarge
deriving DecidableEq, Repr

/-! Mnemonics and operands -/

/-- The mnemonic table, "index = opcode value" (30_encoding.md R47). -/
def mnemonicTable : Vector Token 16 :=
  #v["halt".toList, "load".toList, "loadc".toList, "store".toList,
     "add".toList, "mul".toList, "sub".toList, "div".toList,
     "and".toList, "or".toList, "not".toList, "lshift".toList,
     "rshift".toList, "bwc".toList, "bwd".toList, "if".toList]

/-- `lookupOpcode(mnemonic) -> opcode | Unknown`, case-insensitive (30_encoding.md R50). -/
def lookupOpcode (mnemonic : Token) : Option (BitVec 4) :=
  ((List.range 16).find? fun k => mnemonicTable.toList[k]? == some (mnemonic.map Char.toLower)).map (BitVec.ofNat 4)

/-- The value of a digit character below the base. -/
def digitValue (base : Nat) (c : Char) : Option Nat :=
  let v := if '0' ≤ c ∧ c ≤ '9' then c.toNat - 48
    else if 'a' ≤ c ∧ c ≤ 'f' then c.toNat - 87
    else if 'A' ≤ c ∧ c ≤ 'F' then c.toNat - 55
    else base
  if v < base then some v else none

/-- The number that digits spell after a number already read, most significant digit first. -/
def readDigits (base : Nat) : Nat → Token → Option Nat
  | acc, [] => some acc
  | acc, c :: cs =>
    match digitValue base c with
    | some v => readDigits base (acc * base + v) cs
    | none => none

/-- The number that one or more digits spell. -/
def readNumber (base : Nat) : Token → Option Nat
  | [] => none
  | c :: cs => readDigits base 0 (c :: cs)

/-- A decimal integer with an optional sign (30_encoding.md R52, the decision D19 of the spec). -/
def readInteger : Token → Option Int
  | '-' :: cs => (readNumber 10 cs).map fun n => -(n : Int)
  | '+' :: cs => (readNumber 10 cs).map fun n => (n : Int)
  | cs => (readNumber 10 cs).map fun n => (n : Int)

/-- "Each supplied operand must parse as an integer and lie in [0,7]; otherwise fails with RegisterRangeError"
(30_encoding.md R52). -/
def readOperand (t : Token) : Except LoadError RegField :=
  match readInteger t with
  | some n => if 0 ≤ n ∧ n ≤ 7 then .ok (BitVec.ofInt 4 n) else .error .registerRangeError
  | none => .error .registerRangeError

/-- `encodeInstruction`: the operand count of the opcode, then the operands in order, then the word, with arg2 = 0 for
loadc (30_encoding.md R46, R51, R52; log entry 21 for the order of the checks). -/
def encodeInstruction (op : BitVec 4) (operands : List Token) : Except LoadError Word :=
  if op = 2 then
    match operands with
    | [t1] => (readOperand t1).map fun a1 => packWord op a1 0
    | _ => .error .argumentCountError
  else
    match operands with
    | [t1, t2] => (readOperand t1).bind fun a1 => (readOperand t2).map fun a2 => packWord op a1 a2
    | _ => .error .argumentCountError

/-- A hexadecimal digit of 0 to 15, in capitals (log entry 28). -/
def hexDigit (d : BitVec 4) : Char := if d.toNat < 10 then Char.ofNat (48 + d.toNat) else Char.ofNat (55 + d.toNat)

/-- The 8 characters of an instruction word: "5 literal `0` characters, followed by the opcode's single hex digit, followed
by arg1's digit, followed by arg2's digit" (30_encoding.md R46). -/
def instructionText (op : BitVec 4) (a1 a2 : RegField) : Token :=
  ['0', '0', '0', '0', '0', hexDigit op, hexDigit a1, hexDigit a2]

/-! Constants -/

/-- 1 to 8 hex digits whose value is below 2^31; any other token is refused (30_encoding.md R53, the decision D20 of the
spec; log entry 19). -/
def readWord (digits : Token) : Except LoadError Word :=
  match readNumber 16 digits with
  | some n => if digits.length ≤ 8 ∧ n < 2147483648 then .ok (BitVec.ofNat 32 n) else .error .refusedToken
  | none => .error .refusedToken

/-- `encodeConstant`: "a hexadecimal literal prefixed by two characters to strip" (30_encoding.md R53). -/
def encodeConstant (t : Token) : Except LoadError Word := readWord (t.drop 2)

/-! Program text -/

/-- The tokens of a line, separated by whitespace; `cur` is the token being read, backwards (30_encoding.md R54). -/
def tokensFrom : Token → List Char → List Token
  | cur, [] => if cur = [] then [] else [cur.reverse]
  | cur, c :: cs =>
    if c.isWhitespace then (if cur = [] then tokensFrom [] cs else cur.reverse :: tokensFrom [] cs)
    else tokensFrom (c :: cur) cs

/-- The tokens of a line (30_encoding.md R54). -/
def tokens (line : List Char) : List Token := tokensFrom [] line

/-- What one line of the instruction stream is (30_encoding.md R54). -/
inductive Statement where
  /-- A line containing exactly the token `halt`: it terminates the instruction stream. -/
  | terminator
  /-- An instruction of one word. -/
  | single (w : Word)
  /-- A loadc, whose constant is the next line. -/
  | withConstant (w : Word)
deriving DecidableEq, Repr

/-- Reading one line of the instruction stream (30_encoding.md R50 to R52, R54; log entry 20 for a bare halt). -/
def readStatement (line : List Char) : Except LoadError Statement :=
  match tokens line with
  | [] => .error .notAStatement
  | mnemonic :: operands =>
    if mnemonic = "halt".toList ∧ operands = [] then .ok .terminator
    else
      match lookupOpcode mnemonic with
      | none => .error .unknownMnemonic
      | some op =>
        (encodeInstruction op operands).map fun w => if op = 2 then .withConstant w else .single w

/-- The line after a loadc: one constant token (30_encoding.md R54). -/
def readConstantLine (line : List Char) : Except LoadError Word :=
  match tokens line with
  | [t] => encodeConstant t
  | [] => .error .notAStatement
  | _ => .error .refusedToken

/-- A line of the data region: one constant token, "a bare `halt` token ... is special-cased to emit a zero word"
(30_encoding.md R54). -/
def readDataLine (line : List Char) : Except LoadError Word :=
  if tokens line = ["halt".toList] then .ok 0 else readConstantLine line

/-- The data region, "one per line ... until end of file" (30_encoding.md R54). -/
def assembleData : List (List Char) → Except LoadError (List Word)
  | [] => .ok []
  | line :: rest => (readDataLine line).bind fun w => (assembleData rest).map fun ws => w :: ws

/-- The words of a program text in file order (30_encoding.md R54, R56). Of errors on several lines the first in the file is
reported, which is the model's choice (log entry 30, DESIGN CHOICE). -/
def assemble : List (List Char) → Except LoadError (List Word)
  | [] => .ok []
  | line :: rest =>
    match readStatement line with
    | .error e => .error e
    | .ok .terminator => (assembleData rest).map fun ws => 0 :: ws
    | .ok (.single w) => (assemble rest).map fun ws => w :: ws
    | .ok (.withConstant w) =>
      match rest with
      | [] => .error .missingConstant
      | constant :: rest' =>
        (readConstantLine constant).bind fun c => (assemble rest').map fun ws => w :: c :: ws

/-- The words of a raw hex file, "one token per word" (30_encoding.md R55). That a blank line gives no word and no error, and
that a line may hold several tokens, is the model's choice (log entry 29, DESIGN CHOICE), and so is that the first refused
token gives the error (log entry 30). -/
def readRaw (lines : List (List Char)) : Except LoadError (List Word) := (lines.flatMap tokens).mapM readWord

/-- The words of a file: assembly text if its extension is ASM_EXTENSION, else raw hex (30_encoding.md R55; the parameter
`asmExtension` of 00_scope.md R12). -/
def translateFile (asmExtension extension : Token) (lines : List (List Char)) : Except LoadError (List Word) :=
  if extension = asmExtension then assemble lines else readRaw lines

end Sys2Proof.Machine
end

