-- ==== Sys2Proof/Machine/Loader.lean ====
section
/-! DEFINITION. The program loader and the boot of the machine (30_encoding.md R56, 70_reset_and_hazards.md R105, R106). -/

namespace Sys2Proof.Machine

/-- "(1) create the WordStore with its CAPACITY": a machine with these parameters whose store holds `INIT_MEM`
(70_reset_and_hazards.md R105, R106). -/
def createStore (cfg : Config) (initMem : Nat → Word) : State :=
  { State.reset with cfg := cfg, pc := cfg.base, mem := Memory.ofFn cfg.capacity initMem }

/-- "(2) load the program image": the words at addresses 0 upwards, or no image if one would fall at an address >=
CAPACITY; the words not written stay (30_encoding.md R56; log entry 26). -/
def loadImage (words : List Word) (s : State) : Except LoadError State :=
  if words.length ≤ s.cfg.capacity then .ok { s with mem := s.mem.writeAll 0 words } else .error .imageTooLarge

/-- Loading a file: any translation error aborts the whole load (30_encoding.md R56). The whole file is translated before
its length is held against CAPACITY, so of a translation error and an image too large the load reports the translation
error: the model's choice (log entry 30, DESIGN CHOICE). -/
def loadFile (asmExtension extension : Token) (lines : List (List Char)) (s : State) : Except LoadError State :=
  (translateFile asmExtension extension lines).bind fun words => loadImage words s

/-- The boot order up to the first step: create, load, reset (70_reset_and_hazards.md R106). -/
def boot (cfg : Config) (initMem : Nat → Word) (words : List Word) : Except LoadError State :=
  (loadImage words (createStore cfg initMem)).map resetBlock

end Sys2Proof.Machine
end

