-- ==== Sys2Proof/Machine/Codes.lean ====
section
/-! DEFINITION. The numeric codes of the outcomes (60_exceptions.md R88, the decision D17 of the spec). -/

namespace Sys2Proof.Machine

/-- status 0 Running, 1 Halted(Op0), 2 Halted(Unrecognized), 3 AddressOutOfRange, 4 RegisterIndexError. -/
def statusCode : Status → Nat
  | .running => 0
  | .halted .op0 => 1
  | .halted .unrecognized => 2
  | .faulted (.addressOutOfRange _ _) => 3
  | .faulted (.registerIndexError _ _) => 4

/-- access 0 fetch, 1 loadc_imm, 2 load, 3 store. -/
def accessCode : Access → Nat
  | .fetch => 0
  | .loadcImm => 1
  | .load => 2
  | .store => 3

/-- field 1 arg1, 2 arg2. -/
def fieldCode : ArgField → Nat
  | .arg1 => 1
  | .arg2 => 2

/-- diag 1 DivideByZero, 2 UnrecognizedOpcode. -/
def diagCode : Diagnostic → Nat
  | .divideByZero => 1
  | .unrecognizedOpcode => 2

/-- The source's `Halted(bool)`: true exactly for Halted(kind) (10_state.md R28, 40_cycle.md R63). -/
def haltedFlag : Status → Bool
  | .running => false
  | .halted _ => true
  | .faulted _ => false

end Sys2Proof.Machine
end

