-- ==== Sys2Proof/Machine/HostPort.lean ====
section
/-! DEFINITION. The transaction interface of the block and the host's driver loop (10_state.md R28, 00_scope.md R10,
20_memory.md R41, 40_cycle.md R65, 70_reset_and_hazards.md R108). -/

namespace Sys2Proof.Machine

/-- What the host may ask, between steps (10_state.md R28; snapshot: 20_memory.md R41). -/
inductive Request where
  | reset
  | loadWord (address value : Word)
  | step
  | inspect
  | snapshot
deriving DecidableEq, Repr

/-- `inspect() -> (registers[8], PC, IR)` (40_cycle.md R65). -/
structure View where
  regs : Vector Word 8
  pc : Word
  ir : Word
deriving DecidableEq, Repr

/-- What the block answers. -/
inductive Response where
  | done
  /-- `step_result` and the `diag` event of the step, if any. -/
  | stepResult (status : Status) (diag : Option Diagnostic)
  /-- A step while `status` is not Running. -/
  | refused (status : Status)
  /-- A `load_word` outside [0, CAPACITY) (20_memory.md R30). -/
  | addressOutOfRange (address : Word)
  | view (v : View)
  | cells (c : List (Nat × Word))
deriving DecidableEq, Repr

/-- The read-only view of the state (40_cycle.md R65). -/
def inspect (s : State) : View := { regs := s.regs, pc := s.pc, ir := s.ir }

/-- "ordered sequence of (address, value)" in "ascending address order" (20_memory.md R41). -/
def snapshot (s : State) : List (Nat × Word) := (List.range s.cfg.capacity).map fun a => (a, s.mem.read a)

/-- One transaction of the host, with the block's answer (10_state.md R28). -/
def serve (q : Request) (s : State) : Response × State :=
  match q with
  | .reset => (.done, resetBlock s)
  | .loadWord a v =>
    match memWrite .store a v s with
    | .ok t => (.done, t)
    | .error _ => (.addressOutOfRange a, s)
  | .step =>
    match step s with
    | .next t => (.stepResult t.status t.diag, t)
    | .fault f => (.stepResult (.faulted f) none, takeFault f s)
    | .refused _ => (.refused s.status, s)
  | .inspect => (.view (inspect s), s)
  | .snapshot => (.cells (snapshot s), s)

/-- The driver with a step budget FUEL: it issues steps until one is not accepted or the budget is spent, and gives the
last state and the diagnostics in order (00_scope.md R10, R12; 70_reset_and_hazards.md R108). -/
def driver : Nat → State → State × List Diagnostic
  | 0, s => (s, [])
  | fuel + 1, s =>
    match step s with
    | .next t => ((driver fuel t).1, t.diag.toList ++ (driver fuel t).2)
    | .fault _ => (s, [])
    | .refused _ => (s, [])

/-- A run from `s` ends in `t`: some budget brings it to `t`, and `t` accepts no step (70_reset_and_hazards.md R108). -/
def RunEnds (s t : State) : Prop := ∃ fuel, (driver fuel s).1 = t ∧ t.status ≠ .running

end Sys2Proof.Machine
end

