-- ==== Sys2Proof/Safety.lean ====
section
/-! DEFINITION. The terms claims are stated in: the invariant of the state, the registers an instruction reads and writes
(10_state.md R19), what stays the same, and the safe states. -/

namespace Sys2Proof.Machine

/-- The invariant: CAPACITY in its range (00_scope.md R12), the memory in its canonical form, and no entry outside [0,
CAPACITY) (20_memory.md R32). -/
abbrev Inv (s : State) : Prop := s.cfg.Valid ∧ s.mem.wf ∧ s.mem.within s.cfg.capacity

/-- A safe state: no fatal fault has ended the run (60_exceptions.md R90). -/
abbrev Safe (s : State) : Prop := ∀ f, s.status ≠ .faulted f

/-- The "reads" column of 10_state.md R19. -/
def reads : Instr → List RegField
  | .halt => []
  | .load _ a2 => [a2]
  | .loadc _ => []
  | .store a1 a2 => [a1, a2]
  | .add a1 a2 => [a1, a2]
  | .mul a1 a2 => [a1, a2]
  | .sub a1 a2 => [a1, a2]
  | .div a1 a2 => [a1, a2]
  | .and a1 a2 => [a1, a2]
  | .or a1 a2 => [a1, a2]
  | .not _ a2 => [a2]
  | .lshift _ a2 => [a2]
  | .rshift _ a2 => [a2]
  | .bwc a1 a2 => [a1, a2]
  | .bwd a1 a2 => [a1, a2]
  | .ifnz a1 a2 => [a1, a2]

/-- The "writes" column of 10_state.md R19 (div writes only when its divisor is not 0). -/
def writes : Instr → List RegField
  | .halt => []
  | .load a1 _ => [a1]
  | .loadc a1 => [a1]
  | .store _ _ => []
  | .add a1 _ => [a1]
  | .mul a1 _ => [a1]
  | .sub a1 _ => [a1]
  | .div a1 _ => [a1]
  | .and a1 _ => [a1]
  | .or a1 _ => [a1]
  | .not a1 _ => [a1]
  | .lshift a1 _ => [a1]
  | .rshift a1 _ => [a1]
  | .bwc a1 _ => [a1]
  | .bwd a1 _ => [a1]
  | .ifnz _ _ => []

/-! What stays the same from `s` to `t` -/

/-- Every register. -/
def SameRegs (s t : State) : Prop := ∀ r : Reg, t.reg r = s.reg r

/-- Every word of memory. -/
def SameMemory (s t : State) : Prop := ∀ a : Nat, t.mem.read a = s.mem.read a

/-- The status, the parameters and the `diag` port. -/
def SameStatus (s t : State) : Prop := t.status = s.status ∧ t.cfg = s.cfg ∧ t.diag = s.diag

/-- Everything but the register `d`. -/
def OnlyReg (s t : State) (d : Reg) : Prop :=
  (∀ r : Reg, r ≠ d → t.reg r = s.reg r) ∧ t.pc = s.pc ∧ t.ir = s.ir ∧ SameStatus s t ∧ SameMemory s t

/-- `decode` reads the word at the PC as `i`, and the PC lies inside the store (40_cycle.md R58, R59). -/
abbrev FetchesInstr (s : State) (i : Instr) : Prop := InStore s s.pc ∧ decode (s.mem.read s.pc.toNat) = .ok i

/-- The state an instruction runs in: `ir` holds the fetched word and `pc` its address plus 1, and no event is on the `diag`
port (40_cycle.md R58, R59; log entry 6 for the port). -/
def fetched (s : State) : State := { s with ir := s.mem.read s.pc.toNat, pc := s.pc + 1, diag := none }

/-- The value of the register a field names (0 where it names none). -/
def fieldValue (s : State) (f : RegField) : Word := if h : f.toNat < 8 then s.reg ⟨f.toNat, h⟩ else 0

/-- The address `a` is outside [0, CAPACITY) (20_memory.md R29). -/
abbrev OutsideStore (s : State) (a : Word) : Prop := sint a < 0 ∨ (s.cfg.capacity : Int) ≤ sint a

/-- `n` is the address that the word `a` names inside the store (20_memory.md R29). -/
abbrev NamesAddress (s : State) (a : Word) (n : Nat) : Prop := sint a = n ∧ n < s.cfg.capacity

end Sys2Proof.Machine
end

