-- ==== Sys2Proof/Certificates/Slice0/Obligations.lean ====
section
/-! DEFINITION. The statements for the provers, from the numbered rules of spec/. A register operand is written
`fieldOf d`, the field that names the register `d`; the fields of 8 to 15 that name none have the statement
BadFieldFaults. -/

open Sys2Proof Sys2Proof.Machine

/-! Memory and fetch -/

/-- 20_memory.md R29: a read returns the word at its address, and raises AddressOutOfRange outside [0, CAPACITY), a negative
address included; nothing is reduced, and a read answers a word alone. -/
def Obligations.ReadReturnsTheWordOrFaults : Prop :=
  ∀ (acc : Access) (a : Word) (s : State),
    (∀ n, NamesAddress s a n → memRead acc a s = .ok (s.mem.read n)) ∧
    (OutsideStore s a → memRead acc a s = .error (.addressOutOfRange acc a))

/-- 20_memory.md R30: a write replaces the word at its address whatever stood there, and every other word, the registers, the
PC, the IR and the status stay; outside [0, CAPACITY) it raises AddressOutOfRange and gives no state. -/
def Obligations.WriteReplacesOneWordOrFaults : Prop :=
  ∀ (acc : Access) (a v : Word) (s : State),
    (∀ n, NamesAddress s a n → ∃ t, memWrite acc a v s = .ok t ∧ t.mem.read n = v ∧
      (∀ b, b ≠ n → t.mem.read b = s.mem.read b) ∧ SameRegs s t ∧ t.pc = s.pc ∧ t.ir = s.ir ∧ SameStatus s t) ∧
    (OutsideStore s a → memWrite acc a v s = .error (.addressOutOfRange acc a))

/-- 40_cycle.md R59: the fetch reads the word at `pc` into `ir` and increments `pc`; at an address outside the store, a
negative one included, it raises AddressOutOfRange(fetch, pc), and neither `ir` nor `pc` changes in that step. -/
def Obligations.FetchReadsTheWordAndAdvances : Prop :=
  ∀ s : State,
    (∀ n, NamesAddress s s.pc n → ∃ t, fetchWord .fetch s = .ok t ∧ t.ir = s.mem.read n ∧ t.pc = s.pc + 1 ∧
      SameRegs s t ∧ SameMemory s t ∧ SameStatus s t) ∧
    (OutsideStore s s.pc → fetchWord .fetch s = .error (.addressOutOfRange .fetch s.pc) ∧
      (s.status = .running → ∃ t, step s = .next t ∧ t.ir = s.ir ∧ t.pc = s.pc))

/-- 10_state.md R23 (an inference the spec marks as its own, over the range of CAPACITY of D3): with CAPACITY in its range the
increment of a fetch never wraps and yields at most CAPACITY. -/
def Obligations.PcIncrementNeverWraps : Prop :=
  ∀ (acc : Access) (s t : State), s.cfg.Valid → fetchWord acc s = .ok t →
    sint t.pc = sint s.pc + 1 ∧ sint t.pc ≤ s.cfg.capacity

/-! Encoding -/

/-- 30_encoding.md R47, R48: the word of every row of the opcode map, written out, with its fields at every value; the
unused fields of halt and loadc are ignored. -/
def Obligations.OpcodeMapWords : Prop :=
  ∀ a b : RegField,
    let word (hundreds : Nat) : Word := BitVec.ofNat 32 (hundreds + 16 * a.toNat + b.toNat)
    decode (word 0x000) = .ok .halt ∧ decode (word 0x100) = .ok (.load a b) ∧
    decode (word 0x200) = .ok (.loadc a) ∧ decode (word 0x300) = .ok (.store a b) ∧
    decode (word 0x400) = .ok (.add a b) ∧ decode (word 0x500) = .ok (.mul a b) ∧
    decode (word 0x600) = .ok (.sub a b) ∧ decode (word 0x700) = .ok (.div a b) ∧
    decode (word 0x800) = .ok (.and a b) ∧ decode (word 0x900) = .ok (.or a b) ∧
    decode (word 0xA00) = .ok (.not a b) ∧ decode (word 0xB00) = .ok (.lshift a b) ∧
    decode (word 0xC00) = .ok (.rshift a b) ∧ decode (word 0xD00) = .ok (.bwc a b) ∧
    decode (word 0xE00) = .ok (.bwd a b) ∧ decode (word 0xF00) = .ok (.ifnz a b)

/-- 30_encoding.md R44, R46: decoding the word of an instruction gives it back, with every field at every value of its four
bits (the well-formed instructions among them). -/
def Obligations.DecodeOfEncode : Prop := ∀ i : Instr, decode (encode i) = .ok i

/-- 30_encoding.md R43, R47 and the ignored fields of R48: a word decodes to an instruction exactly when its significant bits
are those of the instruction's word; so every word has at most one reading, and only the ignored fields are free. That
bits 31:12 are significant, so that a word with one set is no instruction, is the decision D6 of the spec (log entry 8, an
unsafe choice), which R44 and R48 mark as a decision. -/
def Obligations.DecodeExactly : Prop :=
  ∀ (w : Word) (i : Instr), decode w = .ok i ↔ w &&& i.significant = encode i

/-- 30_encoding.md R48, by the decision D6 of the spec (log entry 8): the words that are no instruction are exactly those
with a bit of 31:12 set, and every negative word is one. -/
def Obligations.UnrecognizedExactly : Prop :=
  ∀ w : Word, (decode w = .error .unrecognized ↔ 4096 ≤ w.toNat) ∧ (sint w < 0 → decode w = .error .unrecognized)

/-- 30_encoding.md R46: the text of an instruction word has 8 characters, its first 5 `0`, and spells in base 16 the word
`op * 256 + a1 * 16 + a2`; loadc with its one operand has arg2 = 0. -/
def Obligations.InstructionTextSpellsTheWord : Prop :=
  (∀ (op : BitVec 4) (a1 a2 : RegField),
    (instructionText op a1 a2).length = 8 ∧ (instructionText op a1 a2).take 5 = List.replicate 5 '0' ∧
    readNumber 16 (instructionText op a1 a2) = some (op.toNat * 256 + a1.toNat * 16 + a2.toNat) ∧
    (packWord op a1 a2).toNat = op.toNat * 256 + a1.toNat * 16 + a2.toNat) ∧
  ∀ (t : Token) (a1 : RegField), readOperand t = .ok a1 → encodeInstruction 2 [t] = .ok (packWord 2 a1 0)

/-! Assembler and loader -/

/-- 30_encoding.md R57: operands in [0,7] are encoded into a word whose decode recovers the opcode and the operands, for
loadc with arg2 = 0; any operand outside [0,7] and any other operand count fails. The last clause says more than R57: every
wrong count fails as ArgumentCountError whatever the operands, since the model checks the count before the operands (log
entry 21, DESIGN CHOICE), and loadc with no operand fails so by the decision D22 of the spec. -/
def Obligations.AssemblerRoundTrip : Prop :=
  (∀ (op : BitVec 4) (t1 t2 : Token) (n1 n2 : Int), op ≠ 2 → readInteger t1 = some n1 → readInteger t2 = some n2 →
    (((0 ≤ n1 ∧ n1 ≤ 7) ∧ (0 ≤ n2 ∧ n2 ≤ 7)) → ∃ w i, encodeInstruction op [t1, t2] = .ok w ∧ decode w = .ok i ∧
      i.opcode = op ∧ opcodeField w = op ∧ ((arg1Field w).toNat : Int) = n1 ∧ ((arg2Field w).toNat : Int) = n2) ∧
    (¬ ((0 ≤ n1 ∧ n1 ≤ 7) ∧ (0 ≤ n2 ∧ n2 ≤ 7)) → ∃ e, encodeInstruction op [t1, t2] = .error e)) ∧
  (∀ (t1 : Token) (n1 : Int), readInteger t1 = some n1 →
    ((0 ≤ n1 ∧ n1 ≤ 7) → ∃ w i, encodeInstruction 2 [t1] = .ok w ∧ decode w = .ok i ∧
      i.opcode = 2 ∧ opcodeField w = 2 ∧ ((arg1Field w).toNat : Int) = n1 ∧ arg2Field w = 0) ∧
    (¬ (0 ≤ n1 ∧ n1 ≤ 7) → ∃ e, encodeInstruction 2 [t1] = .error e)) ∧
  ∀ (op : BitVec 4) (ts : List Token), ts.length ≠ (if op = 2 then 1 else 2) →
    encodeInstruction op ts = .error .argumentCountError

/-- 30_encoding.md R50: the lookup is the case-insensitive match against the mnemonic table, index = opcode value, so that
each mnemonic has one opcode and each opcode one mnemonic. -/
def Obligations.MnemonicLookup : Prop :=
  ∀ (m : Token) (op : BitVec 4), lookupOpcode m = some op ↔ m.map Char.toLower = mnemonicTable[op.toNat]

/-- 30_encoding.md R53, by the decision D20 of the spec (log entry 19): a constant token is accepted exactly when 1 to 8 hex
digits follow its first two characters and their value, which is the word, is below 2^31. -/
def Obligations.ConstantTokens : Prop :=
  ∀ (t : Token) (w : Word), encodeConstant t = .ok w ↔
    (1 ≤ (t.drop 2).length ∧ (t.drop 2).length ≤ 8 ∧ readNumber 16 (t.drop 2) = some w.toNat ∧ w.toNat < 2 ^ 31)

/-- 30_encoding.md R51, R52, R54: every instruction word the assembler emits decodes to a well-formed instruction, and it asks
for a constant line exactly for the instruction of two words. -/
def Obligations.AssembledWordsAreWellFormed : Prop :=
  ∀ (line : List Char) (w : Word),
    (readStatement line = .ok (.single w) → ∃ i, decode w = .ok i ∧ i.wellFormed = true ∧ i.lengthWords = 1) ∧
    (readStatement line = .ok (.withConstant w) → ∃ i, decode w = .ok i ∧ i.wellFormed = true ∧ i.lengthWords = 2)

/-- 30_encoding.md R56 and 70_reset_and_hazards.md R104 to R106, with the decisions D4, D9, D11, D12 and D18 of the spec (log
entries 2, 3, 5, 11, 17): after the boot the words of the image stand at addresses 0 upwards, every other word holds
INIT_MEM, which is any function, and the block is reset and meets the invariant; an image longer than CAPACITY gives no
machine. -/
def Obligations.BootPlacesTheImage : Prop :=
  ∀ (cfg : Config) (initMem : Nat → Word) (words : List Word),
    (words.length ≤ cfg.capacity → ∃ s, boot cfg initMem words = .ok s ∧
      (∀ a, a < cfg.capacity → s.mem.read a = if h : a < words.length then words[a] else initMem a) ∧
      (∀ r : Reg, s.reg r = 0) ∧ s.pc = cfg.base ∧ s.ir = 0 ∧ s.status = .running ∧ s.cfg = cfg ∧
      (cfg.Valid → Inv s)) ∧
    (cfg.capacity < words.length → boot cfg initMem words = .error .imageTooLarge)

/-! Memory instructions -/

/-- 41_memory_ops.md R66: load writes to x[a1] the word at the address in x[a2], and nothing else changes. -/
def Obligations.LoadResult : Prop :=
  ∀ (d r : Reg) (s : State) (n : Nat), NamesAddress s (s.reg r) n →
    ∃ t, exec (.load (fieldOf d) (fieldOf r)) s = .next t ∧ t.reg d = s.mem.read n ∧ OnlyReg s t d

/-- 41_memory_ops.md R67: loadc fetches the word at the PC into the IR, increments the PC and writes the word to x[a1];
nothing else changes. -/
def Obligations.LoadcResult : Prop :=
  ∀ (d : Reg) (s : State) (n : Nat), NamesAddress s s.pc n →
    ∃ t, exec (.loadc (fieldOf d)) s = .next t ∧ t.reg d = s.mem.read n ∧ t.ir = s.mem.read n ∧ t.pc = s.pc + 1 ∧
      (∀ r : Reg, r ≠ d → t.reg r = s.reg r) ∧ SameStatus s t ∧ SameMemory s t

/-- 41_memory_ops.md R68: store writes x[a2] at the address in x[a1]; every other word of memory, every register, the PC, the
IR and the status stay. -/
def Obligations.StoreResult : Prop :=
  ∀ (d r : Reg) (s : State) (n : Nat), NamesAddress s (s.reg d) n →
    ∃ t, exec (.store (fieldOf d) (fieldOf r)) s = .next t ∧ t.mem.read n = s.reg r ∧
      (∀ a, a ≠ n → t.mem.read a = s.mem.read a) ∧ SameRegs s t ∧ t.pc = s.pc ∧ t.ir = s.ir ∧ SameStatus s t

/-! Arithmetic instructions -/

/-- 42_arithmetic.md R70, by the decision D7 of the spec (log entry 9): add writes to x[a1] the word congruent modulo 2^32 to
the exact sum of the signed operands. -/
def Obligations.AddResult : Prop :=
  ∀ (d r : Reg) (s : State), ∃ t, exec (.add (fieldOf d) (fieldOf r)) s = .next t ∧ OnlyReg s t d ∧
    ∃ k : Int, sint (t.reg d) = sint (s.reg d) + sint (s.reg r) + k * 2 ^ 32

/-- 42_arithmetic.md R71, by the decision D7 of the spec (log entry 9): mul writes to x[a1] the word congruent modulo 2^32 to
the exact product of the signed operands. -/
def Obligations.MulResult : Prop :=
  ∀ (d r : Reg) (s : State), ∃ t, exec (.mul (fieldOf d) (fieldOf r)) s = .next t ∧ OnlyReg s t d ∧
    ∃ k : Int, sint (t.reg d) = sint (s.reg d) * sint (s.reg r) + k * 2 ^ 32

/-- 42_arithmetic.md R72, by the decision D7 of the spec (log entry 9): sub writes to x[a1] the word congruent modulo 2^32 to
the exact difference of the signed operands. -/
def Obligations.SubResult : Prop :=
  ∀ (d r : Reg) (s : State), ∃ t, exec (.sub (fieldOf d) (fieldOf r)) s = .next t ∧ OnlyReg s t d ∧
    ∃ k : Int, sint (t.reg d) = sint (s.reg d) - sint (s.reg r) + k * 2 ^ 32

/-- 42_arithmetic.md R73, R75, by the decision D8 of the spec (log entry 10): div by zero writes no register and puts
DivideByZero on the `diag` port; otherwise the quotient has the magnitude floor(|x| / |y|) and is negative only when the
signs of the operands differ, but for 0x80000000 / -1, which is 0x80000000. -/
def Obligations.DivResult : Prop :=
  ∀ (d r : Reg) (s : State), ∃ t, exec (.div (fieldOf d) (fieldOf r)) s = .next t ∧
    (s.reg r = 0 → SameRegs s t ∧ t.pc = s.pc ∧ t.ir = s.ir ∧ t.status = s.status ∧ t.cfg = s.cfg ∧ SameMemory s t ∧
      t.diag = some .divideByZero) ∧
    (s.reg r ≠ 0 → OnlyReg s t d ∧
      if s.reg d = 0x80000000 ∧ sint (s.reg r) = -1 then t.reg d = 0x80000000
      else (sint (t.reg d)).natAbs = (sint (s.reg d)).natAbs / (sint (s.reg r)).natAbs ∧
        (t.reg d ≠ 0 → (sint (t.reg d) < 0 ↔ ¬ (sint (s.reg d) < 0 ↔ sint (s.reg r) < 0))))

/-- 42_arithmetic.md R74, by the decision D7 of the spec (log entry 9): add, sub and mul give the same bits under the unsigned
reading of the operands. -/
def Obligations.UnsignedReadingGivesTheSameBits : Prop :=
  ∀ (d r : Reg) (s t : State),
    (exec (.add (fieldOf d) (fieldOf r)) s = .next t →
      (t.reg d).toNat = ((s.reg d).toNat + (s.reg r).toNat) % 2 ^ 32) ∧
    (exec (.mul (fieldOf d) (fieldOf r)) s = .next t →
      (t.reg d).toNat = ((s.reg d).toNat * (s.reg r).toNat) % 2 ^ 32) ∧
    (exec (.sub (fieldOf d) (fieldOf r)) s = .next t →
      (t.reg d).toNat = ((s.reg d).toNat + (2 ^ 32 - (s.reg r).toNat)) % 2 ^ 32)

/-! Logical, bitwise and shift instructions -/

/-- 43_logic_shift.md R76, R83: and writes 1 exactly when both operands are nonzero, else 0. -/
def Obligations.AndResult : Prop :=
  ∀ (d r : Reg) (s : State), ∃ t, exec (.and (fieldOf d) (fieldOf r)) s = .next t ∧ OnlyReg s t d ∧
    t.reg d = if s.reg d ≠ 0 ∧ s.reg r ≠ 0 then 1 else 0

/-- 43_logic_shift.md R77, R83: or writes 1 exactly when one of the operands is nonzero, else 0. -/
def Obligations.OrResult : Prop :=
  ∀ (d r : Reg) (s : State), ∃ t, exec (.or (fieldOf d) (fieldOf r)) s = .next t ∧ OnlyReg s t d ∧
    t.reg d = if s.reg d ≠ 0 ∨ s.reg r ≠ 0 then 1 else 0

/-- 43_logic_shift.md R78, R83: not writes 1 exactly when its source is 0, else 0. -/
def Obligations.NotResult : Prop :=
  ∀ (d r : Reg) (s : State), ∃ t, exec (.not (fieldOf d) (fieldOf r)) s = .next t ∧ OnlyReg s t d ∧
    t.reg d = if s.reg r ≠ 0 then 0 else 1

/-- 43_logic_shift.md R79: lshift writes the source shifted left by one place, which is twice it modulo 2^32 (bit 31 is lost
by the decision D7 of the spec, log entry 9). -/
def Obligations.LshiftResult : Prop :=
  ∀ (d r : Reg) (s : State), ∃ t, exec (.lshift (fieldOf d) (fieldOf r)) s = .next t ∧ OnlyReg s t d ∧
    (t.reg d).toNat = 2 * (s.reg r).toNat % 2 ^ 32

/-- 43_logic_shift.md R80: rshift writes floor(x / 2) of the signed source. -/
def Obligations.RshiftResult : Prop :=
  ∀ (d r : Reg) (s : State), ∃ t, exec (.rshift (fieldOf d) (fieldOf r)) s = .next t ∧ OnlyReg s t d ∧
    2 * sint (t.reg d) ≤ sint (s.reg r) ∧ sint (s.reg r) < 2 * sint (t.reg d) + 2

/-- 43_logic_shift.md R81: bwc writes the bitwise and of the operands. -/
def Obligations.BwcResult : Prop :=
  ∀ (d r : Reg) (s : State), ∃ t, exec (.bwc (fieldOf d) (fieldOf r)) s = .next t ∧ OnlyReg s t d ∧
    ∀ k, (t.reg d).getLsbD k = ((s.reg d).getLsbD k && (s.reg r).getLsbD k)

/-- 43_logic_shift.md R82: bwd writes the bitwise or of the operands. -/
def Obligations.BwdResult : Prop :=
  ∀ (d r : Reg) (s : State), ∃ t, exec (.bwd (fieldOf d) (fieldOf r)) s = .next t ∧ OnlyReg s t d ∧
    ∀ k, (t.reg d).getLsbD k = ((s.reg d).getLsbD k || (s.reg r).getLsbD k)

/-! Control -/

/-- 44_control.md R85: `if` sets the PC to x[a2] exactly when x[a1] is nonzero, whatever the target; the PC is otherwise as the
fetch left it, and nothing else changes. -/
def Obligations.IfResult : Prop :=
  ∀ (c r : Reg) (s : State), ∃ t, exec (.ifnz (fieldOf c) (fieldOf r)) s = .next t ∧
    t.pc = (if s.reg c ≠ 0 then s.reg r else s.pc) ∧
    SameRegs s t ∧ t.ir = s.ir ∧ SameStatus s t ∧ SameMemory s t

/-- 40_cycle.md R61: halt sets the status to Halted(Op0), a status of the decision D9 of the spec (log entry 5), and changes
nothing else. -/
def Obligations.HaltResult : Prop :=
  ∀ s : State, ∃ t, exec .halt s = .next t ∧ t.status = .halted .op0 ∧
    SameRegs s t ∧ t.pc = s.pc ∧ t.ir = s.ir ∧ t.cfg = s.cfg ∧ t.diag = s.diag ∧ SameMemory s t

/-! Faults of an instruction -/

/-- 40_cycle.md R60 and 60_exceptions.md R91, R93, by the decisions D5 and D16 of the spec (log entries 7, 15): a used field of 8
to 15 raises RegisterIndexError, arg1 before arg2 and before any other fault of the instruction. -/
def Obligations.BadFieldFaults : Prop :=
  ∀ (i : Instr) (s : State),
    (∀ a1 rest, i.usedFields = a1 :: rest → 8 ≤ a1.toNat → exec i s = .fault (.registerIndexError .arg1 a1)) ∧
    (∀ a1 a2, i.usedFields = [a1, a2] → a1.toNat < 8 → 8 ≤ a2.toNat → exec i s = .fault (.registerIndexError .arg2 a2))

/-- 60_exceptions.md R89: load, loadc and store outside [0, CAPACITY) raise AddressOutOfRange with the access and the address. -/
def Obligations.AccessOutsideTheStoreFaults : Prop :=
  ∀ (d r : Reg) (s : State),
    (OutsideStore s (s.reg r) → exec (.load (fieldOf d) (fieldOf r)) s = .fault (.addressOutOfRange .load (s.reg r))) ∧
    (OutsideStore s s.pc → exec (.loadc (fieldOf d)) s = .fault (.addressOutOfRange .loadcImm s.pc)) ∧
    (OutsideStore s (s.reg d) → exec (.store (fieldOf d) (fieldOf r)) s = .fault (.addressOutOfRange .store (s.reg d)))

/-- 60_exceptions.md R88, R89: a well-formed instruction runs, in every state, but for one fault: an access of load, loadc or
store outside the store. -/
def Obligations.WellFormedInstructionsRun : Prop :=
  ∀ (i : Instr) (s : State), i.wellFormed = true →
    (∃ t, exec i s = .next t) ∨
    ∃ acc a, exec i s = .fault (.addressOutOfRange acc a) ∧ OutsideStore s a ∧
      ((∃ d r, i = .load d r ∧ acc = .load ∧ a = fieldValue s r) ∨ (∃ d, i = .loadc d ∧ acc = .loadcImm ∧ a = s.pc) ∨
        ∃ d r, i = .store d r ∧ acc = .store ∧ a = fieldValue s d)

/-! The step -/

/-- 40_cycle.md R58, with the decisions D9 and D10 of the spec (log entries 4, 5): when the word at the PC decodes to an
instruction, the step is that instruction run in the state after the fetch, and a fatal fault it raises is latched in the
status of the state before the step. That the instruction runs with no event on the `diag` port, and that a latched fault
leaves none there, is the model's choice (log entry 6, DESIGN CHOICE). -/
def Obligations.StepRunsTheDecodedInstruction : Prop :=
  ∀ (s : State) (i : Instr), s.status = .running → FetchesInstr s i →
    step s = match exec i (fetched s) with
      | .next t => .next t
      | .fault f => .next { s with status := .faulted f, diag := none }
      | .refused q => .refused q

/-- 10_state.md R26 and 40_cycle.md R58, by the decision D9 of the spec (log entry 5): a step is refused, and changes nothing,
exactly when the status is not Running; while Running every step answers a next state. -/
def Obligations.StepAcceptedExactlyWhileRunning : Prop :=
  ∀ s : State, (s.status = .running → ∃ t, step s = .next t) ∧
    (s.status ≠ .running → step s = .refused (.notRunning s.status))

/-- 60_exceptions.md R93, with the decisions D5, D6, D9 and D16 of the spec (log entries 5, 7, 8, 15): a step reports one outcome
and at most one diagnostic, the first of the list that applies. That the `diag` port holds no event after a step that emits
none, a faulting step among them, whatever stood on it before, is the model's choice (log entry 6, DESIGN CHOICE). -/
def Obligations.OneOutcomeInPriorityOrder : Prop :=
  ∀ s : State, s.status = .running → ∃ t, step s = .next t ∧
    let w := s.mem.read s.pc.toNat
    let x1 := fieldValue s (arg1Field w)
    let x2 := fieldValue s (arg2Field w)
    if OutsideStore s s.pc then t.status = .faulted (.addressOutOfRange .fetch s.pc) ∧ t.diag = none
    else if 4096 ≤ w.toNat then t.status = .halted .unrecognized ∧ t.diag = some .unrecognizedOpcode
    else if opcodeField w = 0 then t.status = .halted .op0 ∧ t.diag = none
    else if 8 ≤ (arg1Field w).toNat then t.status = .faulted (.registerIndexError .arg1 (arg1Field w)) ∧ t.diag = none
    else if opcodeField w ≠ 2 ∧ 8 ≤ (arg2Field w).toNat then
      t.status = .faulted (.registerIndexError .arg2 (arg2Field w)) ∧ t.diag = none
    else if opcodeField w = 1 ∧ OutsideStore s x2 then t.status = .faulted (.addressOutOfRange .load x2) ∧ t.diag = none
    else if opcodeField w = 2 ∧ OutsideStore s (s.pc + 1) then
      t.status = .faulted (.addressOutOfRange .loadcImm (s.pc + 1)) ∧ t.diag = none
    else if opcodeField w = 3 ∧ OutsideStore s x1 then t.status = .faulted (.addressOutOfRange .store x1) ∧ t.diag = none
    else t.status = .running ∧ t.diag = if opcodeField w = 7 ∧ x2 = 0 then some .divideByZero else none

/-- 40_cycle.md R62, by the decisions D6 and D9 of the spec (log entries 5, 8): a word with a bit of 31:12 set puts
UnrecognizedOpcode on the `diag` port and halts; PC and IR keep the fetch's writes, registers and memory stay. -/
def Obligations.UnrecognizedWordHalts : Prop :=
  ∀ (s : State) (n : Nat), s.status = .running → NamesAddress s s.pc n → upperBits (s.mem.read n) ≠ 0 →
    ∃ t, step s = .next t ∧ t.status = .halted .unrecognized ∧ t.diag = some .unrecognizedOpcode ∧
      t.pc = s.pc + 1 ∧ t.ir = s.mem.read n ∧ SameRegs s t ∧ SameMemory s t ∧ t.cfg = s.cfg

/-- 60_exceptions.md R92: a div by zero completes: the diagnostic is emitted, no register and no word of memory changes, the
status stays Running and the PC is at the next word. -/
def Obligations.DivideByZeroContinues : Prop :=
  ∀ (s : State) (n : Nat) (d r : Reg), s.status = .running → NamesAddress s s.pc n →
    s.mem.read n = BitVec.ofNat 32 (0x700 + 16 * d.val + r.val) → s.reg r = 0 →
    ∃ t, step s = .next t ∧ t.diag = some .divideByZero ∧ t.status = .running ∧ t.pc = s.pc + 1 ∧
      t.ir = s.mem.read n ∧ SameRegs s t ∧ SameMemory s t ∧ t.cfg = s.cfg

/-- 60_exceptions.md R90, by the decision D10 of the spec (log entry 4): a step that ends in a fatal fault keeps none of its
writes. That it leaves no event on the `diag` port, whatever stood on it before, is the model's choice (log entry 6, DESIGN
CHOICE): R90 says nothing of the port. -/
def Obligations.FaultedStepKeepsNoWrite : Prop :=
  ∀ (s t : State) (f : Fault), step s = .next t → t.status = .faulted f →
    SameRegs s t ∧ SameMemory s t ∧ t.pc = s.pc ∧ t.ir = s.ir ∧ t.cfg = s.cfg ∧ t.diag = none

/-- 10_state.md R22 (an inference the spec marks as its own): the PC after a step without a fault. Which words are
unrecognized is the decision D6 of the spec (log entry 8). -/
def Obligations.PcAfterStep : Prop :=
  ∀ s t : State, step s = .next t → (∀ f, t.status ≠ .faulted f) →
    let w := s.mem.read s.pc.toNat
    t.pc = if upperBits w = 0 ∧ opcodeField w = 2 then s.pc + 2
      else if upperBits w = 0 ∧ opcodeField w = 15 ∧ fieldValue s (arg1Field w) ≠ 0 then fieldValue s (arg2Field w)
      else s.pc + 1

/-- 10_state.md R24: the IR after a step without a fault holds the most recently fetched word: the word at the PC, or after
loadc its constant. Which words are unrecognized is the decision D6 of the spec (log entry 8). -/
def Obligations.IrAfterStep : Prop :=
  ∀ s t : State, step s = .next t → (∀ f, t.status ≠ .faulted f) →
    let w := s.mem.read s.pc.toNat
    t.ir = if upperBits w = 0 ∧ opcodeField w = 2 then s.mem.read (s.pc + 1).toNat else w

/-- 20_memory.md R33, R38 and 41_memory_ops.md R68: a word of memory that a step changes is the one word a store of that step
names, and it then holds the register stored. -/
def Obligations.OnlyStoreChangesMemory : Prop :=
  ∀ (s t : State) (a : Nat), step s = .next t → t.mem.read a ≠ s.mem.read a →
    ∃ d r : Reg, FetchesInstr s (.store (fieldOf d) (fieldOf r)) ∧ NamesAddress s (s.reg d) a ∧ t.mem.read a = s.reg r

/-- 10_state.md R19, the "writes" column: an instruction changes no register but the one its row writes. -/
def Obligations.OnlyTheWrittenRegisterChanges : Prop :=
  ∀ (i : Instr) (s t : State) (r : Reg), exec i s = .next t → t.reg r ≠ s.reg r → fieldOf r ∈ writes i

/-- 10_state.md R19, the "reads" column: a register an instruction does not read has no influence on its outcome, on its
faults, or on anything it writes. -/
def Obligations.UnreadRegistersHaveNoInfluence : Prop :=
  ∀ (i : Instr) (s : State) (r : Reg) (v : Word), fieldOf r ∉ reads i →
    exec i (s.setReg r v) = match exec i s with
      | .next t => .next (if fieldOf r ∈ writes i then t else t.setReg r v)
      | .fault f => .fault f
      | .refused q => .refused q

/-- 20_memory.md R40, by the decision D15 of the spec (log entry 14): the word a store writes at the next instruction's address
is the word the next step fetches, while the store's own step fetched the store. -/
def Obligations.StoreIsSeenByTheNextFetch : Prop :=
  ∀ (s : State) (d r : Reg), s.status = .running → FetchesInstr s (.store (fieldOf d) (fieldOf r)) →
    s.reg d = s.pc + 1 → InStore s (s.pc + 1) →
    ∃ t u, step s = .next t ∧ t.ir = s.mem.read s.pc.toNat ∧ fetchWord .fetch t = .ok u ∧ u.ir = s.reg r

/-! Invariants and the host's requests -/

/-- 20_memory.md R32 and 00_scope.md R12: every step keeps the invariant: CAPACITY in its range and fixed, the memory in its
canonical form, and no word outside [0, CAPACITY). -/
def Obligations.StepKeepsTheInvariant : Prop :=
  ∀ s t : State, Inv s → step s = .next t → Inv t ∧ t.cfg = s.cfg

/-- The invariant holds at reset, and a reset of any machine that meets it meets it (70_reset_and_hazards.md R104). -/
def Obligations.ResetMeetsTheInvariant : Prop := Inv State.reset ∧ ∀ s : State, Inv s → Inv (resetBlock s)

/-- 10_state.md R28 and 20_memory.md R30, R32: no request of the host breaks the invariant or changes the parameters. -/
def Obligations.RequestsKeepTheInvariant : Prop :=
  ∀ (q : Request) (s : State), Inv s → Inv (serve q s).2 ∧ (serve q s).2.cfg = s.cfg

/-- 70_reset_and_hazards.md R104, with the decisions D4, D9 and D11 of the spec (log entries 3, 5, 11): what a reset request
leaves, in any state, and that State.reset is the reset of a default machine with nothing in its store. That a reset
leaves no event on the `diag` port, here and in State.reset, is the model's choice (log entry 6, DESIGN CHOICE): R104 says
nothing of the port. -/
def Obligations.ResetRequest : Prop :=
  ∀ s : State, ∃ t, serve .reset s = (.done, t) ∧ (∀ r : Reg, t.reg r = 0) ∧ t.pc = s.cfg.base ∧ t.ir = 0 ∧
    t.status = .running ∧ t.diag = none ∧ SameMemory s t ∧ t.cfg = s.cfg ∧
    (s.cfg = Config.standard → s.mem = [] → t = State.reset)

/-- 60_exceptions.md R96, R103 and 10_state.md R26, by the decision D9 of the spec (log entry 5): a machine that is Halted or
Faulted stays so, its registers, PC and IR unchanged, whatever the host asks but a reset; a reset makes it Running. That a
stopped machine serves a load_word, and stays as it was after one outside the store, is the model's choice (log entry 27,
DESIGN CHOICE). -/
def Obligations.StoppedUntilReset : Prop :=
  ∀ (s : State) (q : Request), s.status ≠ .running →
    (q ≠ .reset → (serve q s).2.status = s.status ∧ SameRegs s (serve q s).2 ∧ (serve q s).2.pc = s.pc ∧
      (serve q s).2.ir = s.ir) ∧
    (serve .reset s).2.status = .running

/-- 40_cycle.md R65 and 20_memory.md R41: inspect shows the registers, the PC and the IR, and the snapshot every word of the
store in ascending order of address; neither changes the state. -/
def Obligations.ViewsShowTheStateAndChangeNothing : Prop :=
  ∀ s : State,
    (∃ v, serve .inspect s = (.view v, s) ∧ v.regs = s.regs ∧ v.pc = s.pc ∧ v.ir = s.ir) ∧
    ∃ dump, serve .snapshot s = (.cells dump, s) ∧ dump.length = s.cfg.capacity ∧
      ∀ a, a < s.cfg.capacity → dump[a]? = some (a, s.mem.read a)

/-- 10_state.md R28 and 20_memory.md R30: load_word writes the one word it names, within the bounds of the store. That it does
so in any status, and that outside the store it answers AddressOutOfRange and changes nothing, the status included, is
the model's choice (log entry 27, DESIGN CHOICE): R28 allows it while no step is in progress, with the bounds of R30. -/
def Obligations.LoadWordRequest : Prop :=
  ∀ (s : State) (a v : Word),
    (∀ n, NamesAddress s a n → ∃ t, serve (.loadWord a v) s = (.done, t) ∧ t.mem.read n = v ∧
      (∀ b, b ≠ n → t.mem.read b = s.mem.read b) ∧ SameRegs s t ∧ t.pc = s.pc ∧ t.ir = s.ir ∧ SameStatus s t) ∧
    (OutsideStore s a → serve (.loadWord a v) s = (.addressOutOfRange a, s))

/-- 70_reset_and_hazards.md R108 and 00_scope.md R10: a run has at most one end, whatever the budget that reaches it. -/
def Obligations.ARunHasOneEnd : Prop := ∀ s t u : State, RunEnds s t → RunEnds s u → t = u
end

