-- ==== Sys2Proof/Laws/Memory.lean ====
section
/-! SUPPORT. Laws of the memory as data: read after write, the canonical form and its keeping, equality of memories. -/

namespace Sys2Proof.Machine

variable (m : Memory) (a b n : Nat) (v : Word)

@[simp] theorem Memory.read_nil : Memory.read [] a = Memory.unlisted a := rfl

theorem Memory.read_cons (k : Nat) (w : Word) :
    Memory.read ((k, w) :: m) a = if k = a then w else m.read a := rfl

theorem Memory.read_put : (m.put a v).read b = if b = a then v else m.read b := by
  induction m with
  | nil => simp only [Memory.put, Memory.read_cons, Memory.read_nil, eq_comm]
  | cons c rest ih =>
    obtain ⟨k, w⟩ := c
    rw [Memory.put]
    by_cases hb : b = a
    · subst hb
      split
      · simp [Memory.read_cons]
      · split
        · simp [Memory.read_cons]
        · next h => rw [Memory.read_cons, if_neg (Ne.symm h), ih, if_pos rfl, if_pos rfl]
    · split
      · simp [Memory.read_cons, Ne.symm hb]
      · split
        · next h => subst h; simp [Memory.read_cons, Ne.symm hb]
        · rw [Memory.read_cons, Memory.read_cons, ih, if_neg hb]

theorem Memory.read_drop : (m.drop a).read b = if b = a then Memory.unlisted b else m.read b := by
  induction m with
  | nil => simp [Memory.drop]
  | cons c rest ih =>
    obtain ⟨k, w⟩ := c
    rw [Memory.drop]
    by_cases hb : b = a
    · subst hb
      split
      · simpa using ih
      · next h => rw [Memory.read_cons, if_neg h, ih, if_pos rfl, if_pos rfl]
    · split
      · next h => subst h; rw [ih, Memory.read_cons, if_neg hb, if_neg (Ne.symm hb)]
      · rw [Memory.read_cons, Memory.read_cons, ih, if_neg hb]

/-- A read after a write: the word written at its address, every other word as before (20_memory.md R29, R30, R38). -/
theorem Memory.read_write : (m.write a v).read b = if b = a then v else m.read b := by
  unfold Memory.write
  split
  · next h => rw [Memory.read_drop]; split <;> simp_all
  · exact Memory.read_put m a b v

@[simp] theorem Memory.read_write_self : (m.write a v).read a = v := by simp [Memory.read_write]

theorem Memory.mem_put {c : Cell} (h : c ∈ m.put a v) : c = (a, v) ∨ c ∈ m := by
  induction m with
  | nil => simpa [Memory.put] using h
  | cons d rest ih =>
    obtain ⟨k, w⟩ := d
    simp only [Memory.put] at h
    split at h
    · simpa using h
    · split at h
      · simp only [List.mem_cons] at h ⊢; tauto
      · simp only [List.mem_cons] at h ⊢; tauto

theorem Memory.drop_sublist : List.Sublist (m.drop a) m := by
  induction m with
  | nil => simp [Memory.drop]
  | cons d rest ih =>
    obtain ⟨k, w⟩ := d
    simp only [Memory.drop]
    split
    · exact ih.cons _
    · exact ih.cons_cons _

theorem Memory.pairwise_put (h : m.Pairwise (fun c d => c.1 < d.1)) : (m.put a v).Pairwise (fun c d => c.1 < d.1) := by
  induction m with
  | nil => simp [Memory.put]
  | cons c rest ih =>
    obtain ⟨k, w⟩ := c
    simp only [List.pairwise_cons] at h
    simp only [Memory.put]
    split
    · next hlt =>
      refine List.pairwise_cons.2 ⟨?_, List.pairwise_cons.2 h⟩
      intro d hd
      rcases List.mem_cons.1 hd with rfl | hd
      · exact hlt
      · exact lt_trans hlt (h.1 d hd)
    · split
      · next heq => exact List.pairwise_cons.2 ⟨fun d hd => heq ▸ h.1 d hd, h.2⟩
      · next hge hne =>
        refine List.pairwise_cons.2 ⟨fun d hd => ?_, ih h.2⟩
        rcases Memory.mem_put rest a v hd with rfl | hd
        · show k < a; omega
        · exact h.1 d hd

/-- A write keeps the canonical form. -/
theorem Memory.write_wf (h : m.wf) : (m.write a v).wf := by
  unfold Memory.write
  split
  · exact ⟨h.1.sublist (Memory.drop_sublist m a), fun c hc => h.2 c ((Memory.drop_sublist m a).subset hc)⟩
  · next hv =>
    refine ⟨Memory.pairwise_put m a v h.1, fun c hc => ?_⟩
    rcases Memory.mem_put m a v hc with rfl | hc
    · exact hv
    · exact h.2 c hc

/-- A write inside the store lists nothing outside it. -/
theorem Memory.write_within (h : m.within n) (ha : a < n) : (m.write a v).within n := by
  intro c hc
  unfold Memory.write at hc
  split at hc
  · exact h c ((Memory.drop_sublist m a).subset hc)
  · rcases Memory.mem_put m a v hc with rfl | hc
    · exact ha
    · exact h c hc

theorem Memory.read_writeAll (ws : List Word) :
    (m.writeAll a ws).read b = if h : a ≤ b ∧ b - a < ws.length then ws[b - a]'h.2 else m.read b := by
  induction ws generalizing m a with
  | nil => simp [Memory.writeAll]
  | cons w ws ih =>
    rw [Memory.writeAll, ih, Memory.read_write]
    rcases Nat.lt_trichotomy b a with h | rfl | h
    · rw [dif_neg (by omega), if_neg (by omega), dif_neg (by omega)]
    · rw [dif_neg (by omega), if_pos rfl, dif_pos (by simp)]
      simp
    · obtain ⟨e, rfl⟩ : ∃ e, b = a + 1 + e := ⟨b - a - 1, by omega⟩
      have h1 : a + 1 + e - (a + 1) = e := by omega
      have h2 : a + 1 + e - a = e + 1 := by omega
      simp only [h1, h2, List.length_cons]
      split
      · rw [dif_pos (by omega)]
        rfl
      · rw [dif_neg (by omega), if_neg (by omega)]

theorem Memory.writeAll_wf (ws : List Word) (h : m.wf) : (m.writeAll a ws).wf := by
  induction ws generalizing m a with
  | nil => exact h
  | cons w ws ih => exact ih _ _ (Memory.write_wf m a w h)

theorem Memory.writeAll_within (ws : List Word) (h : m.within n) (ha : a + ws.length ≤ n) :
    (m.writeAll a ws).within n := by
  induction ws generalizing m a with
  | nil => exact h
  | cons w ws ih =>
    simp only [List.length_cons] at ha
    exact ih _ _ (Memory.write_within m a n w h (by omega)) (by omega)

theorem Memory.ofFn_wf (f : Nat → Word) : (Memory.ofFn n f).wf := Memory.writeAll_wf _ _ _ ⟨List.Pairwise.nil, by simp⟩

theorem Memory.ofFn_within (f : Nat → Word) : (Memory.ofFn n f).within n :=
  Memory.writeAll_within _ _ _ _ (by simp) (by simp)

theorem Memory.read_ofFn (f : Nat → Word) (h : a < n) : (Memory.ofFn n f).read a = f a := by
  rw [Memory.ofFn, Memory.read_writeAll, dif_pos (by simpa using h)]
  simp

theorem Memory.read_of_lt (h : ∀ c ∈ m, a < c.1) : m.read a = Memory.unlisted a := by
  induction m with
  | nil => rfl
  | cons c rest ih =>
    obtain ⟨k, w⟩ := c
    have hk : a < k := h (k, w) (by simp)
    rw [Memory.read_cons, if_neg (by omega)]
    exact ih fun c hc => h c (by simp [hc])

/-- Equal memories are equal data: two canonical memories that read alike everywhere are the same list. -/
theorem Memory.ext_of_read {m m' : Memory} (h : m.wf) (h' : m'.wf) (e : ∀ a, m.read a = m'.read a) : m = m' := by
  induction m generalizing m' with
  | nil =>
    cases m' with
    | nil => rfl
    | cons c rest =>
      obtain ⟨k, w⟩ := c
      have := e k
      rw [Memory.read_nil, Memory.read_cons, if_pos rfl] at this
      exact absurd this.symm (h'.2 (k, w) (by simp))
  | cons c rest ih =>
    obtain ⟨k, w⟩ := c
    obtain ⟨hp, hn⟩ := h
    have hk := List.pairwise_cons.1 hp
    have tail_wf : Memory.wf rest := ⟨hk.2, fun c hc => hn c (by simp [hc])⟩
    cases m' with
    | nil =>
      have := e k
      rw [Memory.read_cons, if_pos rfl, Memory.read_nil] at this
      exact absurd this (hn (k, w) (by simp))
    | cons c' rest' =>
      obtain ⟨k', w'⟩ := c'
      obtain ⟨hp', hn'⟩ := h'
      have hk' := List.pairwise_cons.1 hp'
      have tail_wf' : Memory.wf rest' := ⟨hk'.2, fun c hc => hn' c (by simp [hc])⟩
      have ek := e k
      have ek' := e k'
      have hkk : k = k' := by
        rcases Nat.lt_trichotomy k k' with hlt | heq | hgt
        · rw [Memory.read_cons, if_pos rfl, Memory.read_of_lt _ k (by
            intro c hc
            rcases List.mem_cons.1 hc with rfl | hc
            · exact hlt
            · exact lt_trans hlt (hk'.1 c hc))] at ek
          exact absurd ek (hn (k, w) (by simp))
        · exact heq
        · rw [Memory.read_of_lt _ k' (by
            intro c hc
            rcases List.mem_cons.1 hc with rfl | hc
            · exact hgt
            · exact lt_trans hgt (hk.1 c hc)), Memory.read_cons, if_pos rfl] at ek'
          exact absurd ek'.symm (hn' (k', w') (by simp))
      subst hkk
      simp only [Memory.read_cons, if_true] at ek
      subst ek
      have : rest = rest' := by
        refine ih tail_wf tail_wf' fun a => ?_
        by_cases hak : k = a
        · subst hak
          rw [Memory.read_of_lt rest k hk.1, Memory.read_of_lt rest' k hk'.1]
        · have := e a
          simpa only [Memory.read_cons, if_neg hak] using this
      rw [this]

theorem State.reset_mem_wf : State.reset.mem.wf := by decide

end Sys2Proof.Machine
end

