-- ==== Sys2Proof/Laws/State.lean ====
section
/-! SUPPORT. One lemma per field per update of the state. -/

namespace Sys2Proof.Machine

variable (s : State) (r d : Reg) (v : Word) (k : HaltKind) (e : Diagnostic) (f : Fault)

theorem State.reg_eq : s.reg r = s.regs[r] := rfl

/-! setReg -/

theorem State.reg_setReg : (s.setReg d v).reg r = if r = d then v else s.reg r := by
  simp only [State.setReg, State.reg, Fin.getElem_fin, Vector.getElem_set, Fin.ext_iff, eq_comm]

@[simp] theorem State.reg_setReg_self : (s.setReg d v).reg d = v := by simp [State.reg_setReg]

theorem State.reg_setReg_ne (h : r ≠ d) : (s.setReg d v).reg r = s.reg r := by simp [State.reg_setReg, h]

@[simp] theorem State.setReg_pc : (s.setReg d v).pc = s.pc := rfl
@[simp] theorem State.setReg_ir : (s.setReg d v).ir = s.ir := rfl
@[simp] theorem State.setReg_status : (s.setReg d v).status = s.status := rfl
@[simp] theorem State.setReg_mem : (s.setReg d v).mem = s.mem := rfl
@[simp] theorem State.setReg_cfg : (s.setReg d v).cfg = s.cfg := rfl
@[simp] theorem State.setReg_diag : (s.setReg d v).diag = s.diag := rfl

/-! setPc -/

@[simp] theorem State.setPc_reg : (s.setPc v).reg r = s.reg r := rfl
@[simp] theorem State.setPc_regs : (s.setPc v).regs = s.regs := rfl
@[simp] theorem State.setPc_pc : (s.setPc v).pc = v := rfl
@[simp] theorem State.setPc_ir : (s.setPc v).ir = s.ir := rfl
@[simp] theorem State.setPc_status : (s.setPc v).status = s.status := rfl
@[simp] theorem State.setPc_mem : (s.setPc v).mem = s.mem := rfl
@[simp] theorem State.setPc_cfg : (s.setPc v).cfg = s.cfg := rfl
@[simp] theorem State.setPc_diag : (s.setPc v).diag = s.diag := rfl

/-! haltWith -/

@[simp] theorem haltWith_reg : (haltWith k s).reg r = s.reg r := rfl
@[simp] theorem haltWith_regs : (haltWith k s).regs = s.regs := rfl
@[simp] theorem haltWith_pc : (haltWith k s).pc = s.pc := rfl
@[simp] theorem haltWith_ir : (haltWith k s).ir = s.ir := rfl
@[simp] theorem haltWith_status : (haltWith k s).status = .halted k := rfl
@[simp] theorem haltWith_mem : (haltWith k s).mem = s.mem := rfl
@[simp] theorem haltWith_cfg : (haltWith k s).cfg = s.cfg := rfl
@[simp] theorem haltWith_diag : (haltWith k s).diag = s.diag := rfl

/-! emit -/

@[simp] theorem emit_reg : (emit e s).reg r = s.reg r := rfl
@[simp] theorem emit_regs : (emit e s).regs = s.regs := rfl
@[simp] theorem emit_pc : (emit e s).pc = s.pc := rfl
@[simp] theorem emit_ir : (emit e s).ir = s.ir := rfl
@[simp] theorem emit_status : (emit e s).status = s.status := rfl
@[simp] theorem emit_mem : (emit e s).mem = s.mem := rfl
@[simp] theorem emit_cfg : (emit e s).cfg = s.cfg := rfl
@[simp] theorem emit_diag : (emit e s).diag = some e := rfl

/-! quiet -/

@[simp] theorem quiet_reg : (quiet s).reg r = s.reg r := rfl
@[simp] theorem quiet_regs : (quiet s).regs = s.regs := rfl
@[simp] theorem quiet_pc : (quiet s).pc = s.pc := rfl
@[simp] theorem quiet_ir : (quiet s).ir = s.ir := rfl
@[simp] theorem quiet_status : (quiet s).status = s.status := rfl
@[simp] theorem quiet_mem : (quiet s).mem = s.mem := rfl
@[simp] theorem quiet_cfg : (quiet s).cfg = s.cfg := rfl
@[simp] theorem quiet_diag : (quiet s).diag = none := rfl

/-! takeFault -/

@[simp] theorem takeFault_reg : (takeFault f s).reg r = s.reg r := rfl
@[simp] theorem takeFault_regs : (takeFault f s).regs = s.regs := rfl
@[simp] theorem takeFault_pc : (takeFault f s).pc = s.pc := rfl
@[simp] theorem takeFault_ir : (takeFault f s).ir = s.ir := rfl
@[simp] theorem takeFault_status : (takeFault f s).status = .faulted f := rfl
@[simp] theorem takeFault_mem : (takeFault f s).mem = s.mem := rfl
@[simp] theorem takeFault_cfg : (takeFault f s).cfg = s.cfg := rfl
@[simp] theorem takeFault_diag : (takeFault f s).diag = none := rfl

/-! fetched -/

@[simp] theorem fetched_reg : (fetched s).reg r = s.reg r := rfl
@[simp] theorem fetched_regs : (fetched s).regs = s.regs := rfl
@[simp] theorem fetched_pc : (fetched s).pc = s.pc + 1 := rfl
@[simp] theorem fetched_ir : (fetched s).ir = s.mem.read s.pc.toNat := rfl
@[simp] theorem fetched_status : (fetched s).status = s.status := rfl
@[simp] theorem fetched_mem : (fetched s).mem = s.mem := rfl
@[simp] theorem fetched_cfg : (fetched s).cfg = s.cfg := rfl
@[simp] theorem fetched_diag : (fetched s).diag = none := rfl

/-! resetBlock -/

@[simp] theorem resetBlock_mem : (resetBlock s).mem = s.mem := rfl
@[simp] theorem resetBlock_cfg : (resetBlock s).cfg = s.cfg := rfl
@[simp] theorem resetBlock_status : (resetBlock s).status = .running := rfl

end Sys2Proof.Machine
end

