-- ==== Sys2Proof/Laws/Ops.lean ====
section
/-! SUPPORT. For each shared operation, once, everything it can do: operands, accesses, fetch, raise. -/

namespace Sys2Proof.Machine

/-! Register fields -/

@[simp] theorem fieldOf_toNat (r : Reg) : (fieldOf r).toNat = r.val := by
  have := r.isLt
  simp only [fieldOf, BitVec.toNat_ofNat]
  omega

theorem eq_fieldOf {f : RegField} (h : f.toNat < 8) : f = fieldOf ⟨f.toNat, h⟩ := by
  apply BitVec.eq_of_toNat_eq
  simp

/-- A field that names a register passes the check. -/
@[simp] theorem checkArg_fieldOf (w : ArgField) (r : Reg) : checkArg w (fieldOf r) = .ok r := by
  have := r.isLt
  unfold checkArg
  rw [dif_pos (by simp)]
  simp

/-- A field of 8 to 15 does not (60_exceptions.md R91). -/
theorem checkArg_bad {w : ArgField} {f : RegField} (h : ¬ f.toNat < 8) :
    checkArg w f = .error (.registerIndexError w f) := dif_neg h

theorem checkArg_ok {w : ArgField} {f : RegField} {r : Reg} (h : checkArg w f = .ok r) : f = fieldOf r := by
  by_cases hf : f.toNat < 8
  · rw [eq_fieldOf hf, checkArg_fieldOf] at h
    injection h with h
    rw [← h]
    exact eq_fieldOf hf
  · rw [checkArg_bad hf] at h
    cases h

/-! Going on or raising -/

@[simp] theorem orRaise_ok {α : Type} (v : α) (k : α → Result) : orRaise (.ok v) k = k v := rfl

@[simp] theorem orRaise_error {α : Type} (f : Fault) (k : α → Result) : orRaise (.error f) k = .fault f := rfl

theorem orRaise_next {α : Type} {r : Except Fault α} {k : α → Result} {t : State} (h : orRaise r k = .next t) :
    ∃ v, r = .ok v ∧ k v = .next t := by
  cases r with
  | ok v => exact ⟨v, rfl, h⟩
  | error f => cases h

theorem orRaise_refused {α : Type} {r : Except Fault α} {k : α → Result} {q : Refusal} (h : orRaise r k = .refused q) :
    ∃ v, r = .ok v ∧ k v = .refused q := by
  cases r with
  | ok v => exact ⟨v, rfl, h⟩
  | error f => cases h

@[simp] theorem withArg1_fieldOf (d : Reg) (k : Reg → Result) : withArg1 (fieldOf d) k = k d := by simp [withArg1]

@[simp] theorem withArgs_fieldOf (d r : Reg) (k : Reg → Reg → Result) : withArgs (fieldOf d) (fieldOf r) k = k d r := by
  simp [withArgs]

theorem withArg1_next {a1 : RegField} {k : Reg → Result} {t : State} (h : withArg1 a1 k = .next t) :
    ∃ d, a1 = fieldOf d ∧ k d = .next t := by
  obtain ⟨d, hd, h⟩ := orRaise_next h
  exact ⟨d, checkArg_ok hd, h⟩

theorem withArgs_next {a1 a2 : RegField} {k : Reg → Reg → Result} {t : State} (h : withArgs a1 a2 k = .next t) :
    ∃ d r, a1 = fieldOf d ∧ a2 = fieldOf r ∧ k d r = .next t := by
  obtain ⟨d, hd, h⟩ := orRaise_next h
  obtain ⟨r, hr, h⟩ := orRaise_next h
  exact ⟨d, r, checkArg_ok hd, checkArg_ok hr, h⟩

theorem binary_next {f : Word → Word → Word} {a1 a2 : RegField} {s t : State} (h : binary f a1 a2 s = .next t) :
    ∃ d r, a1 = fieldOf d ∧ a2 = fieldOf r ∧ t = s.setReg d (f (s.reg d) (s.reg r)) := by
  obtain ⟨d, r, h1, h2, h⟩ := withArgs_next h
  injection h with h
  exact ⟨d, r, h1, h2, h.symm⟩

theorem unary_next {f : Word → Word} {a1 a2 : RegField} {s t : State} (h : unary f a1 a2 s = .next t) :
    ∃ d r, a1 = fieldOf d ∧ a2 = fieldOf r ∧ t = s.setReg d (f (s.reg r)) := by
  obtain ⟨d, r, h1, h2, h⟩ := withArgs_next h
  injection h with h
  exact ⟨d, r, h1, h2, h.symm⟩

/-! Accesses -/

/-- Inside the store the unsigned reading of an address is its signed value. -/
theorem InStore.toNat_eq {s : State} {a : Word} (h : InStore s a) : (a.toNat : Int) = sint a := by
  have := h.1
  simp only [sint, BitVec.toInt_eq_toNat_cond] at this ⊢
  split at this <;> split <;> omega

theorem InStore.toNat_lt {s : State} {a : Word} (h : InStore s a) : a.toNat < s.cfg.capacity := by
  have := h.toNat_eq
  have := h.2
  omega

theorem memRead_ok {acc : Access} {a v : Word} {s : State} (h : memRead acc a s = .ok v) :
    InStore s a ∧ v = s.mem.read a.toNat := by
  unfold memRead at h
  split at h
  · next hs =>
    injection h with h
    exact ⟨hs, h.symm⟩
  · cases h

theorem memWrite_ok {acc : Access} {a v : Word} {s t : State} (h : memWrite acc a v s = .ok t) :
    InStore s a ∧ t = { s with mem := s.mem.write a.toNat v } := by
  unfold memWrite at h
  split at h
  · next hs =>
    injection h with h
    exact ⟨hs, h.symm⟩
  · cases h

theorem fetchWord_ok {acc : Access} {s t : State} (h : fetchWord acc s = .ok t) :
    InStore s s.pc ∧ t = { s with ir := s.mem.read s.pc.toNat, pc := s.pc + 1 } := by
  unfold fetchWord at h
  split at h
  · next w hw =>
    obtain ⟨hs, rfl⟩ := memRead_ok hw
    injection h with h
    exact ⟨hs, h.symm⟩
  · cases h

theorem fetchWord_inStore {acc : Access} {s : State} (h : InStore s s.pc) :
    fetchWord acc s = .ok { s with ir := s.mem.read s.pc.toNat, pc := s.pc + 1 } := by
  simp only [fetchWord, memRead, if_pos h]

theorem fetchWord_outside {acc : Access} {s : State} (h : ¬ InStore s s.pc) :
    fetchWord acc s = .error (.addressOutOfRange acc s.pc) := by
  simp only [fetchWord, memRead, if_neg h]

end Sys2Proof.Machine
end

