-- ==== Sys2Proof/Laws/PerInstr.lean ====
section
/-! SUPPORT. Statements per instruction, about the instruction as syntax. -/

namespace Sys2Proof.Laws

/-- The fields of a packed word (30_encoding.md R43, R46). -/
theorem packWord_fields (op : BitVec 4) (a1 a2 : RegField) :
    upperBits (packWord op a1 a2) = 0 ∧ opcodeField (packWord op a1 a2) = op ∧
      arg1Field (packWord op a1 a2) = a1 ∧ arg2Field (packWord op a1 a2) = a2 := by
  refine ⟨?_, ?_, ?_, ?_⟩ <;>
  · apply BitVec.eq_of_getLsbD_eq
    intro k hk
    simp only [packWord, upperBits, opcodeField, arg1Field, arg2Field, BitVec.getLsbD_extractLsb', BitVec.getLsbD_append]
    interval_cases k <;> simp

/-- The word of an instruction has zeros in bits 31:12 and the instruction's opcode in bits 11:8, and its first used field,
if any, in bits 7:4 (30_encoding.md R43, R46, R47). -/
def Layout.Statement (i : Instr) : Prop :=
  upperBits (encode i) = 0 ∧ opcodeField (encode i) = i.opcode ∧
    ∀ f, i.usedFields.head? = some f → arg1Field (encode i) = f

/-- The layout of a packed word, for any instruction it is the word of. -/
theorem Layout.of_pack {i : Instr} {a1 a2 : RegField} (he : encode i = packWord i.opcode a1 a2)
    (hf : ∀ f, i.usedFields.head? = some f → a1 = f) : Layout.Statement i := by
  obtain ⟨h0, h1, h2, -⟩ := packWord_fields i.opcode a1 a2
  rw [← he] at h0 h1 h2
  exact ⟨h0, h1, fun f hff => h2.trans (hf f hff)⟩

theorem Layout.halt : Layout.Statement .halt := Layout.of_pack rfl (by simp [Instr.usedFields])
theorem Layout.load (a1 a2 : RegField) : Layout.Statement (.load a1 a2) := Layout.of_pack rfl (by simp [Instr.usedFields])
theorem Layout.loadc (a1 : RegField) : Layout.Statement (.loadc a1) := Layout.of_pack rfl (by simp [Instr.usedFields])
theorem Layout.store (a1 a2 : RegField) : Layout.Statement (.store a1 a2) := Layout.of_pack rfl (by simp [Instr.usedFields])
theorem Layout.add (a1 a2 : RegField) : Layout.Statement (.add a1 a2) := Layout.of_pack rfl (by simp [Instr.usedFields])
theorem Layout.mul (a1 a2 : RegField) : Layout.Statement (.mul a1 a2) := Layout.of_pack rfl (by simp [Instr.usedFields])
theorem Layout.sub (a1 a2 : RegField) : Layout.Statement (.sub a1 a2) := Layout.of_pack rfl (by simp [Instr.usedFields])
theorem Layout.div (a1 a2 : RegField) : Layout.Statement (.div a1 a2) := Layout.of_pack rfl (by simp [Instr.usedFields])
theorem Layout.and (a1 a2 : RegField) : Layout.Statement (.and a1 a2) := Layout.of_pack rfl (by simp [Instr.usedFields])
theorem Layout.or (a1 a2 : RegField) : Layout.Statement (.or a1 a2) := Layout.of_pack rfl (by simp [Instr.usedFields])
theorem Layout.not (a1 a2 : RegField) : Layout.Statement (.not a1 a2) := Layout.of_pack rfl (by simp [Instr.usedFields])
theorem Layout.lshift (a1 a2 : RegField) : Layout.Statement (.lshift a1 a2) :=
  Layout.of_pack rfl (by simp [Instr.usedFields])
theorem Layout.rshift (a1 a2 : RegField) : Layout.Statement (.rshift a1 a2) :=
  Layout.of_pack rfl (by simp [Instr.usedFields])
theorem Layout.bwc (a1 a2 : RegField) : Layout.Statement (.bwc a1 a2) := Layout.of_pack rfl (by simp [Instr.usedFields])
theorem Layout.bwd (a1 a2 : RegField) : Layout.Statement (.bwd a1 a2) := Layout.of_pack rfl (by simp [Instr.usedFields])
theorem Layout.ifnz (a1 a2 : RegField) : Layout.Statement (.ifnz a1 a2) := Layout.of_pack rfl (by simp [Instr.usedFields])

end Sys2Proof.Laws
end

