-- ==== Sys2Proof/Laws/Step.lean ====
section
/-! SUPPORT. What an instruction and a step can do, said once: the inversion lemmas of exec, commit and step. -/

namespace Sys2Proof.Machine

/-- An instruction is never refused. -/
theorem exec_not_refused (i : Instr) (s : State) (q : Refusal) : exec i s ≠ .refused q := by
  intro h
  cases i <;>
    simp only [exec, execHalt, execLoad, execLoadc, execStore, execAdd, execMul, execSub, execDiv, execAnd, execOr, execNot,
      execLshift, execRshift, execBwc, execBwd, execIfnz, binary, unary, withArgs, withArg1] at h
  case halt => cases h
  case loadc =>
    obtain ⟨d, -, h⟩ := orRaise_refused h
    obtain ⟨t, -, h⟩ := orRaise_refused h
    cases h
  all_goals
    obtain ⟨d, -, h⟩ := orRaise_refused h
    obtain ⟨r, -, h⟩ := orRaise_refused h
    first
      | cases h
      | (split at h <;> cases h)
      | (obtain ⟨v, -, h⟩ := orRaise_refused h; cases h)

/-- What an instruction does to the memory and the parameters: it leaves both, or it is one write inside the store. -/
theorem exec_memory {i : Instr} {s t : State} (h : exec i s = .next t) :
    t.cfg = s.cfg ∧ (t.mem = s.mem ∨
      ∃ d r, i = .store (fieldOf d) (fieldOf r) ∧ InStore s (s.reg d) ∧
        t.mem = s.mem.write (s.reg d).toNat (s.reg r)) := by
  cases i with
  | halt =>
    injection h with h
    subst h
    exact ⟨rfl, .inl rfl⟩
  | load a1 a2 =>
    obtain ⟨d, r, rfl, rfl, h1⟩ := withArgs_next h
    obtain ⟨v, -, h2⟩ := orRaise_next h1
    injection h2 with h3
    subst h3
    exact ⟨rfl, .inl rfl⟩
  | loadc a1 =>
    obtain ⟨d, rfl, h1⟩ := withArg1_next h
    obtain ⟨u, hu, h2⟩ := orRaise_next h1
    obtain ⟨-, rfl⟩ := fetchWord_ok hu
    injection h2 with h3
    subst h3
    exact ⟨rfl, .inl rfl⟩
  | store a1 a2 =>
    obtain ⟨d, r, rfl, rfl, h1⟩ := withArgs_next h
    obtain ⟨u, hu, h2⟩ := orRaise_next h1
    obtain ⟨hs, rfl⟩ := memWrite_ok hu
    injection h2 with h3
    subst h3
    exact ⟨rfl, .inr ⟨d, r, rfl, hs, rfl⟩⟩
  | div a1 a2 =>
    obtain ⟨d, r, rfl, rfl, h1⟩ := withArgs_next h
    split at h1 <;>
    · injection h1 with h2
      subst h2
      exact ⟨rfl, .inl rfl⟩
  | ifnz a1 a2 =>
    obtain ⟨d, r, rfl, rfl, h1⟩ := withArgs_next h
    split at h1 <;>
    · injection h1 with h2
      subst h2
      exact ⟨rfl, .inl rfl⟩
  | not a1 a2 | lshift a1 a2 | rshift a1 a2 =>
    obtain ⟨d, r, rfl, rfl, rfl⟩ := unary_next h
    exact ⟨rfl, .inl rfl⟩
  | add a1 a2 | mul a1 a2 | sub a1 a2 | and a1 a2 | or a1 a2 | bwc a1 a2 | bwd a1 a2 =>
    obtain ⟨d, r, rfl, rfl, rfl⟩ := binary_next h
    exact ⟨rfl, .inl rfl⟩

/-- A commit answers a next state: the instruction's own, or the state before the step with the fault latched. -/
theorem commit_next {s t : State} {x : Result} (h : commit s x = .next t) :
    x = .next t ∨ ∃ f, x = .fault f ∧ t = takeFault f s := by
  cases x with
  | next u => exact .inl h
  | fault f =>
    injection h with h
    exact .inr ⟨f, rfl, h.symm⟩
  | refused q => cases h

/-- A step of a machine that is not Running is refused. -/
theorem step_refused {s : State} (h : s.status ≠ .running) : step s = .refused (.notRunning s.status) := if_neg h

/-- A step whose fetch is outside the store latches the fault. -/
theorem step_outside {s : State} (h : s.status = .running) (hs : ¬ InStore s s.pc) :
    step s = .next (takeFault (.addressOutOfRange .fetch s.pc) s) := by
  have : fetchWord .fetch (quiet s) = .error (.addressOutOfRange .fetch s.pc) := fetchWord_outside hs
  simp only [step, stepWith, if_pos h, this]

/-- A step whose fetch is inside the store decodes and runs the fetched word. -/
theorem step_inside {s : State} (h : s.status = .running) (hs : InStore s s.pc) :
    step s = decodeAndRun exec s (fetched s) := by
  have : fetchWord .fetch (quiet s) = .ok (fetched s) := fetchWord_inStore hs
  simp only [step, stepWith, if_pos h, this]

/-- Everything a step that answers a next state can have done. -/
theorem step_next {s t : State} (h : step s = .next t) :
    s.status = .running ∧
      ((¬ InStore s s.pc ∧ t = takeFault (.addressOutOfRange .fetch s.pc) s) ∨
       (InStore s s.pc ∧ decode (s.mem.read s.pc.toNat) = .error .unrecognized ∧ t = haltUnrecognized (fetched s)) ∨
       ∃ i, FetchesInstr s i ∧
         (exec i (fetched s) = .next t ∨ ∃ f, exec i (fetched s) = .fault f ∧ t = takeFault f s)) := by
  by_cases hr : s.status = .running
  · refine ⟨hr, ?_⟩
    by_cases hs : InStore s s.pc
    · rw [step_inside hr hs] at h
      unfold decodeAndRun at h
      split at h
      · next i hi => exact .inr (.inr ⟨i, ⟨hs, hi⟩, commit_next h⟩)
      · next hi =>
        injection h with h
        exact .inr (.inl ⟨hs, hi, h.symm⟩)
    · rw [step_outside hr hs] at h
      injection h with h
      exact .inl ⟨hs, h.symm⟩
  · rw [step_refused hr] at h
    cases h

end Sys2Proof.Machine
end

