-- ==== Sys2Proof/Tests/Slice0.lean ====
section
/-! SUPPORT. Tests: expected results are the vectors of 95_test_vectors.md, written out by hand there; and for each statement
with hypotheses a witness that meets them. -/

namespace Sys2Proof.Tests

open Sys2Proof.Machine

/-- A running default machine with some registers and memory words set. -/
def machine (xs : List (Reg × Word)) (cells : List (Nat × Word)) (pc : Word) : State :=
  xs.foldl (fun s x => s.setReg x.1 x.2)
    { State.reset with mem := cells.foldl (fun m c => m.write c.1 c.2) [], pc := pc }

/-- The state an outcome goes on with. -/
def nextOf (r : Result) : Option State :=
  match r with
  | .next t => some t
  | .fault _ => none
  | .refused _ => none

/-- What one step leaves of a register, with the PC and the status. -/
def after (s : State) (r : Reg) : Option (Word × Word × Status) :=
  (nextOf (step s)).map fun t => (t.reg r, t.pc, t.status)

/-! Well-formedness: an ill-formed term for each check -/

theorem test_wellFormed_accepts : (Instr.add 7 0).wellFormed = true := by decide
theorem test_wellFormed_refuses_arg1 : (Instr.add 8 0).wellFormed = false := by decide
theorem test_wellFormed_refuses_arg2 : (Instr.ifnz 0 15).wellFormed = false := by decide
theorem test_wellFormed_refuses_loadc : (Instr.loadc 9).wellFormed = false := by decide

/-! Decoding: words written out from 30_encoding.md R43, R47 -/

theorem test_decode_halt : decode 0b00000000000000000000_0000_1111_1111#32 = .ok .halt := by decide
theorem test_decode_load : decode 0b00000000000000000000_0001_0000_0001#32 = .ok (.load 0 1) := by decide
theorem test_decode_loadc : decode 0b00000000000000000000_0010_0111_1111#32 = .ok (.loadc 7) := by decide
theorem test_decode_store : decode 0b00000000000000000000_0011_0100_0011#32 = .ok (.store 4 3) := by decide
theorem test_decode_add : decode 0b00000000000000000000_0100_0011_0100#32 = .ok (.add 3 4) := by decide
theorem test_decode_mul : decode 0b00000000000000000000_0101_0010_0011#32 = .ok (.mul 2 3) := by decide
theorem test_decode_sub : decode 0b00000000000000000000_0110_0001_0010#32 = .ok (.sub 1 2) := by decide
theorem test_decode_div : decode 0b00000000000000000000_0111_0000_0010#32 = .ok (.div 0 2) := by decide
theorem test_decode_and : decode 0b00000000000000000000_1000_0110_0101#32 = .ok (.and 6 5) := by decide
theorem test_decode_or : decode 0b00000000000000000000_1001_0000_0001#32 = .ok (.or 0 1) := by decide
theorem test_decode_not : decode 0b00000000000000000000_1010_0101_0100#32 = .ok (.not 5 4) := by decide
theorem test_decode_lshift : decode 0b00000000000000000000_1011_0011_0010#32 = .ok (.lshift 3 2) := by decide
theorem test_decode_rshift : decode 0b00000000000000000000_1100_0011_0000#32 = .ok (.rshift 3 0) := by decide
theorem test_decode_bwc : decode 0b00000000000000000000_1101_0110_0001#32 = .ok (.bwc 6 1) := by decide
theorem test_decode_bwd : decode 0b00000000000000000000_1110_0110_0000#32 = .ok (.bwd 6 0) := by decide
theorem test_decode_if : decode 0b00000000000000000000_1111_0001_0011#32 = .ok (.ifnz 1 3) := by decide
theorem test_decode_bit12 : decode 0x1000 = .error .unrecognized := by decide
theorem test_decode_negative : decode 0x80000401 = .error .unrecognized := by decide
theorem test_encode_add : encode (.add 3 4) = 1076 := by decide
theorem test_decodeTableWord_loadc : decodeTableWord 64 0x2A00000220 = some (.loadc 2) := by decide

/-! One step of each instruction (95_test_vectors.md sections 1 and 2) -/

theorem test_load_top : after (machine [(1, 255)] [(0, 0x101), (255, 0x12345678)] 0) 0 = some (0x12345678, 1, .running) := by
  decide
theorem test_load_same_register : after (machine [(3, 2)] [(0, 0x133), (2, 0xFFFFFFF0)] 0) 3 = some (0xFFFFFFF0, 1, .running) := by
  decide
theorem test_loadc : (nextOf (step (machine [] [(0, 0x220), (1, 0x2A)] 0))).map (fun t => (t.reg 2, t.pc, t.ir)) =
    some (42, 2, 0x2A) := by decide
theorem test_loadc_last_word : after (machine [(5, 1)] [(255, 0x250)] 255) 5 =
    some (1, 255, .faulted (.addressOutOfRange .loadcImm 256)) := by decide
theorem test_store : (nextOf (step (machine [(4, 11), (3, 42)] [(0, 0x343)] 0))).map (fun t => (t.mem.read 11, t.pc)) =
    some (42, 1) := by decide
theorem test_store_zero_over_the_next_word :
    (nextOf (step (machine [(1, 1)] [(0, 0x312), (1, 0x411)] 0))).map (fun t => t.mem) = some [(0, 0x312)] := by decide
theorem test_add : after (machine [(0, 3), (1, 4)] [(0, 0x401)] 0) 0 = some (7, 1, .running) := by decide
theorem test_add_wraps : after (machine [(0, 0x7FFFFFFF), (1, 1)] [(0, 0x401)] 0) 0 = some (0x80000000, 1, .running) := by decide
theorem test_mul : after (machine [(2, 6), (3, 0xFFFFFFF9)] [(0, 0x523)] 0) 2 = some (0xFFFFFFD6, 1, .running) := by decide
theorem test_mul_low_bits : after (machine [(2, 0xFFFF), (3, 0xFFFF)] [(0, 0x523)] 0) 2 = some (0xFFFE0001, 1, .running) := by
  decide
theorem test_sub : after (machine [(1, 7)] [(0, 0x601)] 0) 0 = some (0xFFFFFFF9, 1, .running) := by decide
theorem test_sub_wraps : after (machine [(0, 0x80000000), (1, 1)] [(0, 0x601)] 0) 0 = some (0x7FFFFFFF, 1, .running) := by decide
theorem test_div_toward_zero : after (machine [(0, 0xFFFFFFF9), (2, 2)] [(0, 0x702)] 0) 0 = some (0xFFFFFFFD, 1, .running) := by
  decide
theorem test_div_least_by_minus_one :
    after (machine [(0, 0x80000000), (2, 0xFFFFFFFF)] [(0, 0x702)] 0) 0 = some (0x80000000, 1, .running) := by decide
theorem test_and : after (machine [(6, 0xFFFFFFFD), (5, 1)] [(0, 0x865)] 0) 6 = some (1, 1, .running) := by decide
theorem test_and_zero : after (machine [(6, 5)] [(0, 0x865)] 0) 6 = some (0, 1, .running) := by decide
theorem test_or : after (machine [(1, 0x100)] [(0, 0x901)] 0) 0 = some (1, 1, .running) := by decide
theorem test_or_zero : after (machine [] [(0, 0x901)] 0) 0 = some (0, 1, .running) := by decide
theorem test_not : after (machine [] [(0, 0xA54)] 0) 5 = some (1, 1, .running) := by decide
theorem test_not_is_boolean : after (machine [(4, 0xFFFFFFFF), (5, 3)] [(0, 0xA54)] 0) 5 = some (0, 1, .running) := by decide
theorem test_lshift : after (machine [(2, 21)] [(0, 0xB32)] 0) 3 = some (42, 1, .running) := by decide
theorem test_lshift_loses_bit31 : after (machine [(2, 0xFFFFFFFF)] [(0, 0xB32)] 0) 3 = some (0xFFFFFFFE, 1, .running) := by decide
theorem test_rshift : after (machine [(0, 0xFFFFFFFD)] [(0, 0xC30)] 0) 3 = some (0xFFFFFFFE, 1, .running) := by decide
theorem test_rshift_keeps_sign : after (machine [(0, 0x80000000)] [(0, 0xC30)] 0) 3 = some (0xC0000000, 1, .running) := by decide
theorem test_bwc : after (machine [(6, 0xFFFFFFFD), (1, 7)] [(0, 0xD61)] 0) 6 = some (5, 1, .running) := by decide
theorem test_bwc_is_bitwise : after (machine [(6, 1), (1, 2)] [(0, 0xD61)] 0) 6 = some (0, 1, .running) := by decide
theorem test_bwd : after (machine [(0, 0xFFFFFFFD)] [(0, 0xE60)] 0) 6 = some (0xFFFFFFFD, 1, .running) := by decide
theorem test_bwd_all : after (machine [(6, 0x0F0F0F0F), (0, 0xF0F0F0F0)] [(0, 0xE60)] 0) 6 = some (0xFFFFFFFF, 1, .running) := by
  decide
theorem test_if_taken : after (machine [(1, 0xFFFFFFFF), (3, 6)] [(8, 0xF13)] 8) 3 = some (6, 6, .running) := by decide
theorem test_if_not_taken : after (machine [(3, 6)] [(8, 0xF13)] 8) 3 = some (6, 9, .running) := by decide
theorem test_halt : after (machine [(2, 7)] [] 200) 2 = some (7, 201, .halted .op0) := by decide
theorem test_halt_ignores_fields : after (machine [] [(0, 0xFF)] 0) 0 = some (0, 1, .halted .op0) := by decide

/-! Priority of the outcomes (95_test_vectors.md 2.1 to 2.3): one vector for each case of OneOutcomeInPriorityOrder -/

theorem test_fetch_outside : after (machine [] [] 256) 0 = some (0, 256, .faulted (.addressOutOfRange .fetch 256)) := by decide
theorem test_unrecognized : (nextOf (step (machine [] [(0, 0x1400)] 0))).map (fun t => (t.status, t.diag, t.pc, t.ir)) =
    some (.halted .unrecognized, some .unrecognizedOpcode, 1, 0x1400) := by decide
theorem test_arg1_first : after (machine [] [(0, 0x4FF)] 0) 0 = some (0, 0, .faulted (.registerIndexError .arg1 15)) := by decide
theorem test_arg2 : after (machine [] [(0, 0x41F)] 0) 0 = some (0, 0, .faulted (.registerIndexError .arg2 15)) := by decide
theorem test_loadc_bad_field : after (machine [] [(255, 0x298)] 255) 0 =
    some (0, 255, .faulted (.registerIndexError .arg1 9)) := by decide
theorem test_load_negative : after (machine [(0, 9), (1, 0xFFFFFFFB)] [(0, 0x101)] 0) 0 =
    some (9, 0, .faulted (.addressOutOfRange .load 0xFFFFFFFB)) := by decide
theorem test_store_outside : after (machine [(4, 256), (3, 42)] [(0, 0x343)] 0) 4 =
    some (256, 0, .faulted (.addressOutOfRange .store 256)) := by decide
theorem test_div_by_zero : (nextOf (step (machine [(0, 9)] [(0, 0x701)] 0))).map (fun t => (t.reg 0, t.pc, t.status, t.diag)) =
    some (9, 1, .running, some .divideByZero) := by decide
theorem test_stopped_is_refused : nextOf (step { State.reset with status := .halted .op0 }) = none := by decide

/-! The host's word placed at the PC -/

theorem test_withFetchWord : (nextOf (step (State.reset.withFetchWord 32 0x0A01))).map (fun t => (t.reg 0, t.pc)) =
    some (1, 1) := by decide
theorem test_withFetchWord_loadc : (nextOf (step (State.reset.withFetchWord 32 0x0220))).map (fun t => (t.reg 2, t.pc)) =
    some (0, 2) := by decide

/-! Codes, assembler and loader (60_exceptions.md R88; 95_test_vectors.md 2.8) -/

theorem test_codes : (statusCode (.faulted (.registerIndexError .arg1 8)), accessCode .store, fieldCode .arg2,
    diagCode .unrecognizedOpcode, haltedFlag (.faulted (.registerIndexError .arg1 8))) = (4, 3, 2, 2, false) := by decide
theorem test_assemble_program :
    assemble ["Add 3 4".toList, "loadc 2".toList, "0x002a".toList, "halt 3 4".toList, "halt".toList, "halt".toList,
      "0x15".toList] = .ok [0x434, 0x220, 0x2A, 0x34, 0, 0, 0x15] := by decide
theorem test_assemble_range : assemble ["add -1 1".toList] = .error .registerRangeError := by decide
theorem test_assemble_count : assemble ["loadc".toList] = .error .argumentCountError := by decide
theorem test_assemble_unknown : assemble ["foo 1 2".toList] = .error .unknownMnemonic := by decide
theorem test_constant_too_large : encodeConstant "0x80000000".toList = .error .refusedToken := by decide
theorem test_raw_file : translateFile "asm".toList "hex".toList ["00000434".toList] = .ok [0x434] := by decide
theorem test_instruction_text : instructionText 4 3 4 = "00000434".toList := by decide

/-! Witnesses: hypotheses that hold together, named after the statement -/

/-- A load at the top of the store, about to run. -/
def loading : State := machine [(1, 255)] [(255, 0x101)] 255
/-- A store to the word after it, about to run. -/
def storing : State := machine [(4, 11), (3, 42)] [(10, 0x343)] 10
/-- A division by zero, about to run. -/
def dividing : State := machine [(0, 9)] [(0, 0x701)] 0
/-- A parameter set with a store of two words. -/
def tiny : Config := { capacity := 2, base := 1 }

theorem witness_ReadReturnsTheWordOrFaults :
    NamesAddress loading 255 255 ∧ OutsideStore loading 256 ∧ OutsideStore loading 0xFFFFFFFF := by decide
theorem witness_WriteReplacesOneWordOrFaults :
    NamesAddress loading 0 0 ∧ NamesAddress loading 255 255 ∧ OutsideStore loading 256 ∧ 0 ≠ 255 := by decide
theorem witness_FetchReadsTheWordAndAdvances :
    NamesAddress loading loading.pc 255 ∧ OutsideStore (machine [] [] 256) 256 ∧ (machine [] [] 256).status = .running := by
  decide
theorem witness_PcIncrementNeverWraps : loading.cfg.Valid ∧ ∃ t, fetchWord .fetch loading = .ok t := ⟨by decide, _, rfl⟩
theorem witness_UnrecognizedExactly : sint (0xFFFFFFFF : Word) < 0 := by decide
theorem witness_InstructionTextSpellsTheWord : readOperand "7".toList = .ok 7 := by decide
theorem witness_AssemblerRoundTrip :
    (4 : BitVec 4) ≠ 2 ∧ readInteger "7".toList = some 7 ∧ readInteger "0".toList = some 0 ∧ readInteger "8".toList = some 8 ∧
      readInteger "-1".toList = some (-1) ∧ ["7".toList].length ≠ (if (4 : BitVec 4) = 2 then 1 else 2) := by decide
theorem witness_AssembledWordsAreWellFormed : readStatement "add 3 4".toList = .ok (.single 0x434) ∧
    readStatement "loadc 7".toList = .ok (.withConstant 0x270) := by decide
theorem witness_BootPlacesTheImage : [(1 : Word), 2].length ≤ tiny.capacity ∧ tiny.capacity < [(1 : Word), 2, 3].length ∧
    tiny.Valid ∧ 1 < tiny.capacity := by decide
theorem witness_LoadResult : NamesAddress loading (loading.reg 1) 255 := by decide
theorem witness_LoadcResult : NamesAddress loading loading.pc 255 := by decide
theorem witness_StoreResult : NamesAddress storing (storing.reg 4) 11 := by decide
theorem witness_DivResult : dividing.reg 1 = 0 ∧ dividing.reg 0 ≠ 0 ∧
    (machine [(0, 0x80000000), (1, 0xFFFFFFFF)] [] 0).reg 0 = 0x80000000 ∧
    sint ((machine [(0, 0x80000000), (1, 0xFFFFFFFF)] [] 0).reg 1) = -1 := by decide
theorem witness_UnsignedReadingGivesTheSameBits :
    (∃ t, exec (.add (fieldOf 0) (fieldOf 1)) loading = .next t) ∧ (∃ t, exec (.mul (fieldOf 0) (fieldOf 1)) loading = .next t) ∧
      ∃ t, exec (.sub (fieldOf 0) (fieldOf 1)) loading = .next t := ⟨⟨_, rfl⟩, ⟨_, rfl⟩, ⟨_, rfl⟩⟩
theorem witness_BadFieldFaults :
    (Instr.loadc 8).usedFields = [8] ∧ (Instr.add 7 8).usedFields = [7, 8] ∧ 8 ≤ (8 : RegField).toNat ∧ (7 : RegField).toNat < 8 := by
  decide
theorem witness_AccessOutsideTheStoreFaults : OutsideStore (machine [(4, 256)] [] 256) ((machine [(4, 256)] [] 256).reg 4) ∧
    OutsideStore (machine [(4, 256)] [] 256) (machine [(4, 256)] [] 256).pc := by decide
theorem witness_WellFormedInstructionsRun : (Instr.load 7 7).wellFormed = true := by decide
theorem witness_StepRunsTheDecodedInstruction : loading.status = .running ∧ FetchesInstr loading (.load 0 1) := by decide
theorem witness_StepAcceptedExactlyWhileRunning :
    loading.status = .running ∧ (haltWith .op0 loading).status ≠ .running := by decide
theorem witness_OneOutcomeInPriorityOrder : dividing.status = .running := by decide
theorem witness_UnrecognizedWordHalts : (machine [] [(0, 0x1000)] 0).status = .running ∧
    NamesAddress (machine [] [(0, 0x1000)] 0) 0 0 ∧ upperBits ((machine [] [(0, 0x1000)] 0).mem.read 0) ≠ 0 := by decide
theorem witness_DivideByZeroContinues : dividing.status = .running ∧ NamesAddress dividing dividing.pc 0 ∧
    dividing.mem.read 0 = BitVec.ofNat 32 (0x700 + 16 * (0 : Reg).val + (1 : Reg).val) ∧ dividing.reg 1 = 0 := by decide
theorem witness_FaultedStepKeepsNoWrite :
    (nextOf (step (machine [] [] 256))).map State.status = some (.faulted (.addressOutOfRange .fetch 256)) := by decide
theorem witness_PcAfterStep : (nextOf (step storing)).map State.status = some .running := by decide
theorem witness_IrAfterStep : (nextOf (step loading)).map State.status = some .running := by decide
theorem witness_OnlyStoreChangesMemory :
    (nextOf (step storing)).map (fun t => decide (t.mem.read 11 ≠ storing.mem.read 11)) = some true := by decide
theorem witness_OnlyTheWrittenRegisterChanges :
    (nextOf (exec (.load 0 1) loading)).map (fun t => decide (t.reg 0 ≠ loading.reg 0)) = some true := by decide
theorem witness_UnreadRegistersHaveNoInfluence : fieldOf 0 ∉ reads (.load 0 1) := by decide
theorem witness_StoreIsSeenByTheNextFetch : storing.status = .running ∧ FetchesInstr storing (.store (fieldOf 4) (fieldOf 3)) ∧
    storing.reg 4 = storing.pc + 1 ∧ InStore storing (storing.pc + 1) := by decide
theorem witness_StepKeepsTheInvariant : Inv storing ∧ (nextOf (step storing)).isSome = true := by decide
theorem witness_ResetMeetsTheInvariant : Inv loading := by decide
theorem witness_RequestsKeepTheInvariant : Inv storing := by decide
theorem witness_ResetRequest : (haltWith .op0 State.reset).cfg = Config.standard ∧ (haltWith .op0 State.reset).mem = [] := by decide
theorem witness_StoppedUntilReset : (haltWith .op0 loading).status ≠ .running ∧ Request.step ≠ .reset := by decide
theorem witness_ViewsShowTheStateAndChangeNothing : 255 < loading.cfg.capacity := by decide
theorem witness_LoadWordRequest : NamesAddress loading 255 255 ∧ OutsideStore loading 256 := by decide
theorem witness_ARunHasOneEnd : RunEnds State.reset (haltWith .op0 (fetched State.reset)) := ⟨1, by decide⟩

end Sys2Proof.Tests
end

section
/-! PROOFS of the statements about the state (10_state.md): the laws of registers, decoding and instructions they need, then
each statement. -/

namespace Sys2Proof.Machine

/-! Laws of the register file -/

@[simp] theorem fieldOf_inj {r d : Reg} : fieldOf r = fieldOf d ↔ r = d := by
  refine ⟨fun h => Fin.ext ?_, congrArg fieldOf⟩
  simpa using congrArg BitVec.toNat h

theorem State.setReg_setReg_self (s : State) (d : Reg) (v w : Word) : (s.setReg d v).setReg d w = s.setReg d w := by
  simp [State.setReg]

theorem State.setReg_comm {d r : Reg} (h : r ≠ d) (s : State) (v w : Word) :
    (s.setReg r v).setReg d w = (s.setReg d w).setReg r v := by
  simp only [State.setReg]
  rw [Vector.set_comm]
  exact fun hv => h (Fin.ext hv)

/-- A write of `x[d]` keeps every register but the one named in its one-entry "writes" column. -/
theorem State.setReg_keeps (s : State) (d : Reg) (v : Word) (r : Reg) (h : fieldOf r ∉ [fieldOf d]) :
    (s.setReg d v).reg r = s.reg r :=
  State.reg_setReg_ne s r d v (by simpa using h)

@[simp] theorem fieldValue_fieldOf (s : State) (r : Reg) : fieldValue s (fieldOf r) = s.reg r := by
  simp [fieldValue]

theorem nonzero_iff {w : Word} : nonzero w = true ↔ w ≠ 0 := bne_iff_ne

/-! Laws of decoding -/

/-- A recognized word has bits 31:12 clear and is the row of the opcode map its fields select (30_encoding.md R44). -/
theorem decode_ok {w : Word} {i : Instr} (h : decode w = .ok i) :
    upperBits w = 0 ∧ i = instrOf (opcodeField w) (arg1Field w) (arg2Field w) := by
  unfold decode at h
  split at h
  · next hu =>
    injection h with h
    exact ⟨hu, h.symm⟩
  · cases h

theorem decode_unrecognized {w : Word} (h : decode w = .error .unrecognized) : upperBits w ≠ 0 := by
  unfold decode at h
  split at h
  · cases h
  · assumption

/-! What an instruction does to the PC, the IR and the registers -/

/-- The PC an instruction leaves when it ends without a fault (10_state.md R22). -/
def pcAfter : Instr → State → Word
  | .loadc _, s => s.pc + 1
  | .ifnz a1 a2, s => if fieldValue s a1 ≠ 0 then fieldValue s a2 else s.pc
  | _, s => s.pc

/-- The IR an instruction leaves when it ends without a fault (10_state.md R24). -/
def irAfter : Instr → State → Word
  | .loadc _, s => s.mem.read s.pc.toNat
  | _, s => s.ir

theorem pcAfter_instrOf (op : BitVec 4) (a1 a2 : RegField) (s : State) :
    pcAfter (instrOf op a1 a2) s =
      if op = 2 then s.pc + 1 else if op = 15 ∧ fieldValue s a1 ≠ 0 then fieldValue s a2 else s.pc := by
  obtain ⟨k⟩ := op
  fin_cases k <;> simp [instrOf, opcodeMap, pcAfter]

theorem irAfter_instrOf (op : BitVec 4) (a1 a2 : RegField) (s : State) :
    irAfter (instrOf op a1 a2) s = if op = 2 then s.mem.read s.pc.toNat else s.ir := by
  obtain ⟨k⟩ := op
  fin_cases k <;> simp [instrOf, opcodeMap, irAfter]

/-- Everything an instruction that answers a next state does to the PC, the IR and the registers (`exec_memory` says the
rest). -/
theorem exec_pc_ir_regs {i : Instr} {s t : State} (h : exec i s = .next t) :
    t.pc = pcAfter i s ∧ t.ir = irAfter i s ∧ ∀ r : Reg, fieldOf r ∉ writes i → t.reg r = s.reg r := by
  cases i with
  | halt =>
    injection h with h
    subst h
    exact ⟨rfl, rfl, fun _ _ => rfl⟩
  | load a1 a2 =>
    obtain ⟨d, r, rfl, rfl, h1⟩ := withArgs_next h
    obtain ⟨v, -, h2⟩ := orRaise_next h1
    injection h2 with h3
    subst h3
    exact ⟨rfl, rfl, State.setReg_keeps s d v⟩
  | loadc a1 =>
    obtain ⟨d, rfl, h1⟩ := withArg1_next h
    obtain ⟨u, hu, h2⟩ := orRaise_next h1
    obtain ⟨-, rfl⟩ := fetchWord_ok hu
    injection h2 with h3
    subst h3
    exact ⟨rfl, rfl, State.setReg_keeps _ d _⟩
  | store a1 a2 =>
    obtain ⟨d, r, rfl, rfl, h1⟩ := withArgs_next h
    obtain ⟨u, hu, h2⟩ := orRaise_next h1
    obtain ⟨-, rfl⟩ := memWrite_ok hu
    injection h2 with h3
    subst h3
    exact ⟨rfl, rfl, fun _ _ => rfl⟩
  | div a1 a2 =>
    obtain ⟨d, r, rfl, rfl, h1⟩ := withArgs_next h
    split at h1 <;> injection h1 with h2 <;> subst h2
    · exact ⟨rfl, rfl, fun _ _ => rfl⟩
    · exact ⟨rfl, rfl, State.setReg_keeps s d _⟩
  | ifnz a1 a2 =>
    obtain ⟨c, r, rfl, rfl, h1⟩ := withArgs_next h
    have hpc : pcAfter (.ifnz (fieldOf c) (fieldOf r)) s = if nonzero (s.reg c) then s.reg r else s.pc := by
      simp [pcAfter, nonzero_iff]
    split at h1 <;> next hc =>
      injection h1 with h2
      subst h2
      exact ⟨by simp [hpc, hc], rfl, fun _ _ => rfl⟩
  | not a1 a2 | lshift a1 a2 | rshift a1 a2 =>
    obtain ⟨d, r, rfl, rfl, rfl⟩ := unary_next h
    exact ⟨rfl, rfl, State.setReg_keeps s d _⟩
  | add a1 a2 | mul a1 a2 | sub a1 a2 | and a1 a2 | or a1 a2 | bwc a1 a2 | bwd a1 a2 =>
    obtain ⟨d, r, rfl, rfl, rfl⟩ := binary_next h
    exact ⟨rfl, rfl, State.setReg_keeps s d _⟩

/-- A step without a fault halted on an unrecognized word, or ran the fetched instruction to its end. -/
theorem step_next_safe {s t : State} (h : step s = .next t) (safe : Safe t) :
    (upperBits (s.mem.read s.pc.toNat) ≠ 0 ∧ t = haltUnrecognized (fetched s)) ∨
      ∃ i, decode (s.mem.read s.pc.toNat) = .ok i ∧ exec i (fetched s) = .next t := by
  obtain ⟨-, ⟨-, rfl⟩ | ⟨-, hw, rfl⟩ | ⟨i, ⟨-, hi⟩, hx | ⟨f, -, rfl⟩⟩⟩ := step_next h
  · exact absurd rfl (safe _)
  · exact .inl ⟨decode_unrecognized hw, rfl⟩
  · exact .inr ⟨i, hi, hx⟩
  · exact absurd rfl (safe f)

/-! The value of a register carried past an instruction -/

/-- The outcome with `v` in `x[r]` of the next state, unless `r` is among the written fields. -/
def carryReg (written : List RegField) (r : Reg) (v : Word) : Result → Result
  | .next t => .next (if fieldOf r ∈ written then t else t.setReg r v)
  | .fault f => .fault f
  | .refused q => .refused q

section
variable {written : List RegField} {r : Reg} {v : Word} {s : State}

theorem carryReg_next_of_notMem {t : State} (h : fieldOf r ∉ written) :
    carryReg written r v (.next t) = .next (t.setReg r v) := by
  rw [carryReg, if_neg h]

/-- Writing `x[d]` after `x[r]` is carrying `x[r]` past the write of `x[d]`. -/
theorem carryReg_next_setReg (s : State) (d : Reg) (w : Word) :
    carryReg [fieldOf d] r v (.next (s.setReg d w)) = .next ((s.setReg r v).setReg d w) := by
  by_cases h : r = d
  · subst h
    simp [carryReg, State.setReg_setReg_self]
  · rw [carryReg_next_of_notMem (by simpa using h), State.setReg_comm h]

/-- A register is carried past a check that does not depend on it when it is carried past what follows. -/
theorem orRaise_carryReg {α : Type} {x : Except Fault α} {k k' : α → Result}
    (h : ∀ y, x = .ok y → k' y = carryReg written r v (k y)) : orRaise x k' = carryReg written r v (orRaise x k) := by
  cases x with
  | ok y => exact h y rfl
  | error f => rfl

theorem withArgs_carryReg {a1 a2 : RegField} {k k' : Reg → Reg → Result}
    (h : ∀ d e, a1 = fieldOf d → a2 = fieldOf e → k' d e = carryReg written r v (k d e)) :
    withArgs a1 a2 k' = carryReg written r v (withArgs a1 a2 k) :=
  orRaise_carryReg fun _ hd => orRaise_carryReg fun _ he => h _ _ (checkArg_ok hd) (checkArg_ok he)

theorem reg_setReg_of_unread {d : Reg} {fs : List RegField} (h : fieldOf r ∉ fs) (hd : fieldOf d ∈ fs) :
    (s.setReg r v).reg d = s.reg d :=
  State.reg_setReg_ne s d r v fun e => h (e ▸ hd)

theorem binary_setReg {f : Word → Word → Word} {a1 a2 : RegField} (h : fieldOf r ∉ [a1, a2]) :
    binary f a1 a2 (s.setReg r v) = carryReg [a1] r v (binary f a1 a2 s) := by
  refine withArgs_carryReg ?_
  rintro d e rfl rfl
  rw [carryReg_next_setReg, reg_setReg_of_unread h (by simp), reg_setReg_of_unread h (by simp)]

theorem unary_setReg {f : Word → Word} {a1 a2 : RegField} (h : fieldOf r ∉ [a2]) :
    unary f a1 a2 (s.setReg r v) = carryReg [a1] r v (unary f a1 a2 s) := by
  refine withArgs_carryReg ?_
  rintro d e rfl rfl
  rw [carryReg_next_setReg, reg_setReg_of_unread h (by simp)]

theorem execLoad_setReg {a1 a2 : RegField} (h : fieldOf r ∉ [a2]) :
    execLoad a1 a2 (s.setReg r v) = carryReg [a1] r v (execLoad a1 a2 s) := by
  refine withArgs_carryReg ?_
  rintro d e rfl rfl
  rw [reg_setReg_of_unread h (by simp)]
  exact orRaise_carryReg fun w _ => (carryReg_next_setReg s d w).symm

/-- A fetch neither reads nor writes a register. -/
theorem fetchWord_setReg (acc : Access) (s : State) (r : Reg) (v : Word) :
    fetchWord acc (s.setReg r v) = (fetchWord acc s).map (·.setReg r v) := by
  by_cases hs : InStore s s.pc
  · rw [fetchWord_inStore hs, fetchWord_inStore (s := s.setReg r v) hs]
    rfl
  · rw [fetchWord_outside hs, fetchWord_outside (s := s.setReg r v) hs]
    rfl

theorem execLoadc_setReg {a1 : RegField} :
    execLoadc a1 (s.setReg r v) = carryReg [a1] r v (execLoadc a1 s) := by
  refine orRaise_carryReg fun d hd => ?_
  obtain rfl := checkArg_ok hd
  rw [fetchWord_setReg]
  cases fetchWord .loadcImm s with
  | ok t => exact (carryReg_next_setReg t d t.ir).symm
  | error f => rfl

theorem execStore_setReg {a1 a2 : RegField} (h : fieldOf r ∉ [a1, a2]) :
    execStore a1 a2 (s.setReg r v) = carryReg [] r v (execStore a1 a2 s) := by
  refine withArgs_carryReg ?_
  rintro d e rfl rfl
  rw [reg_setReg_of_unread h (by simp), reg_setReg_of_unread h (by simp)]
  by_cases hs : InStore s (s.reg d)
  · simp only [memWrite, if_pos hs, if_pos (show InStore (s.setReg r v) (s.reg d) from hs)]
    rfl
  · simp only [memWrite, if_neg hs, if_neg (show ¬ InStore (s.setReg r v) (s.reg d) from hs)]
    rfl

theorem execDiv_setReg {a1 a2 : RegField} (h : fieldOf r ∉ [a1, a2]) :
    execDiv a1 a2 (s.setReg r v) = carryReg [a1] r v (execDiv a1 a2 s) := by
  refine withArgs_carryReg ?_
  rintro d e rfl rfl
  rw [reg_setReg_of_unread h (by simp), reg_setReg_of_unread h (by simp)]
  split
  · rw [carryReg_next_of_notMem fun hr => h (by simp_all)]
    rfl
  · rw [carryReg_next_setReg]

theorem execIfnz_setReg {a1 a2 : RegField} (h : fieldOf r ∉ [a1, a2]) :
    execIfnz a1 a2 (s.setReg r v) = carryReg [] r v (execIfnz a1 a2 s) := by
  refine withArgs_carryReg ?_
  rintro d e rfl rfl
  rw [reg_setReg_of_unread h (by simp), reg_setReg_of_unread h (by simp)]
  split <;> rfl

/-- A register an instruction does not read is only carried past it. -/
theorem exec_setReg {i : Instr} (h : fieldOf r ∉ reads i) :
    exec i (s.setReg r v) = carryReg (writes i) r v (exec i s) := by
  cases i with
  | halt => rfl
  | load => exact execLoad_setReg h
  | loadc => exact execLoadc_setReg
  | store => exact execStore_setReg h
  | div => exact execDiv_setReg h
  | ifnz => exact execIfnz_setReg h
  | not | lshift | rshift => exact unary_setReg h
  | add | mul | sub | and | or | bwc | bwd => exact binary_setReg h

end

/-- With CAPACITY in its range, the word after an address inside the store is its successor as a signed integer. -/
theorem InStore.sint_add_one {s : State} {a : Word} (h : InStore s a) (hc : s.cfg.Valid) : sint (a + 1) = sint a + 1 := by
  have hn := h.toNat_eq
  have hlt := h.toNat_lt
  have hmax := hc.2
  have hs : (a + 1).toNat = a.toNat + 1 := by
    rw [BitVec.toNat_add]
    exact Nat.mod_eq_of_lt (by simp; omega)
  rw [← hn, sint, BitVec.toInt_eq_toNat_of_lt (by omega), hs]
  rfl

end Sys2Proof.Machine

namespace Sys2Proof.Proofs

open Sys2Proof.Machine

/-- Settles O4: the fetch went through, so the PC is below CAPACITY, whose range leaves room for the increment. -/
theorem pcIncrementNeverWraps : Obligations.PcIncrementNeverWraps := by
  intro acc s t hc h
  obtain ⟨hs, rfl⟩ := fetchWord_ok h
  have succ : sint (s.pc + 1) = sint s.pc + 1 := hs.sint_add_one hc
  exact ⟨succ, succ ▸ Int.add_one_le_of_lt hs.2⟩

/-- Settles O41: the fetch's increment, then what the fetched instruction does to the PC. -/
theorem pcAfterStep : Obligations.PcAfterStep := by
  intro s t h safe w
  obtain ⟨hw, rfl⟩ | ⟨i, hi, hx⟩ := step_next_safe h safe
  · rw [if_neg fun c => hw c.1, if_neg fun c => hw c.1]
    rfl
  · obtain ⟨hw, rfl⟩ := decode_ok hi
    obtain ⟨hpc, -, -⟩ := exec_pc_ir_regs hx
    have two : s.pc + 1 + 1 = s.pc + 2 := BitVec.add_assoc ..
    rw [pcAfter_instrOf, fetched_pc, two] at hpc
    rw [if_congr (and_iff_right hw) rfl rfl, if_congr (and_iff_right hw) rfl rfl]
    exact hpc

/-- Settles O42: the fetched word, which only loadc replaces, by the word after it. -/
theorem irAfterStep : Obligations.IrAfterStep := by
  intro s t h safe w
  obtain ⟨hw, rfl⟩ | ⟨i, hi, hx⟩ := step_next_safe h safe
  · rw [if_neg fun c => hw c.1]
    rfl
  · obtain ⟨hw, rfl⟩ := decode_ok hi
    obtain ⟨-, hir, -⟩ := exec_pc_ir_regs hx
    rw [irAfter_instrOf] at hir
    rw [if_congr (and_iff_right hw) rfl rfl]
    exact hir

/-- Settles O44, from what each instruction does to the registers. -/
theorem onlyTheWrittenRegisterChanges : Obligations.OnlyTheWrittenRegisterChanges := by
  intro i s t r h changed
  obtain ⟨-, -, keeps⟩ := exec_pc_ir_regs h
  exact not_imp_comm.1 (keeps r) changed

/-- Settles O45: the value of an unread register is only carried past the instruction. -/
theorem unreadRegistersHaveNoInfluence : Obligations.UnreadRegistersHaveNoInfluence :=
  fun _ _ _ _ h => exec_setReg h

end Sys2Proof.Proofs
end

section
/-! PROOFS of the statements about the store (20_memory.md): the laws of addresses and accesses, what a step and a request
can do to the store, then each statement. -/

namespace Sys2Proof.Machine

variable {acc : Access} {s t : State} {a v : Word} {n : Nat}

/-! Laws of addresses -/

theorem NamesAddress.inStore (h : NamesAddress s a n) : InStore s a := by
  obtain ⟨ha, hn⟩ := h
  exact ⟨by omega, by omega⟩

theorem NamesAddress.toNat_eq (h : NamesAddress s a n) : a.toNat = n := by
  have := h.inStore.toNat_eq
  have := h.1
  omega

theorem InStore.namesAddress (h : InStore s a) : NamesAddress s a a.toNat := ⟨h.toNat_eq.symm, h.toNat_lt⟩

theorem OutsideStore.not_inStore (h : OutsideStore s a) : ¬ InStore s a := fun hs =>
  h.elim (Int.not_lt.2 hs.1) (Int.not_le.2 hs.2)

/-! Laws of the accesses -/

theorem memRead_inStore (h : InStore s a) : memRead acc a s = .ok (s.mem.read a.toNat) := if_pos h

theorem memRead_outside (h : ¬ InStore s a) : memRead acc a s = .error (.addressOutOfRange acc a) := if_neg h

theorem memWrite_inStore (h : InStore s a) : memWrite acc a v s = .ok { s with mem := s.mem.write a.toNat v } := if_pos h

theorem memWrite_outside (h : ¬ InStore s a) : memWrite acc a v s = .error (.addressOutOfRange acc a) := if_neg h

/-! What a step and a request can do to the store -/

/-- From `s` to `t` the parameters stay, and the contents of the store stay or are one write inside it. -/
def AtMostOneWrite (s t : State) : Prop :=
  t.cfg = s.cfg ∧ (t.mem = s.mem ∨ ∃ a v, InStore s a ∧ t.mem = s.mem.write a.toNat v)

theorem AtMostOneWrite.of_same (hc : t.cfg = s.cfg) (hm : t.mem = s.mem) : AtMostOneWrite s t := ⟨hc, .inl hm⟩

theorem AtMostOneWrite.of_memWrite (h : memWrite acc a v s = .ok t) : AtMostOneWrite s t := by
  obtain ⟨hs, rfl⟩ := memWrite_ok h
  exact ⟨rfl, .inr ⟨a, v, hs, rfl⟩⟩

/-- Both ways to change the store keep the canonical form and write nothing outside [0, CAPACITY) (20_memory.md R32). -/
theorem AtMostOneWrite.keeps_inv (h : AtMostOneWrite s t) (hi : Inv s) : Inv t := by
  obtain ⟨hvalid, hwf, hwithin⟩ := hi
  obtain ⟨hc, hm | ⟨a, v, hs, hm⟩⟩ := h
  · rw [Inv, hc, hm]
    exact ⟨hvalid, hwf, hwithin⟩
  · rw [Inv, hc, hm]
    exact ⟨hvalid, Memory.write_wf _ _ _ hwf, Memory.write_within _ _ _ _ hwithin hs.toNat_lt⟩

/-- What a step does to the memory and the parameters: it leaves both, or it fetched a store whose one write is inside the
store. -/
theorem step_memory (h : step s = .next t) :
    t.cfg = s.cfg ∧ (t.mem = s.mem ∨
      ∃ d r, FetchesInstr s (.store (fieldOf d) (fieldOf r)) ∧ InStore s (s.reg d) ∧
        t.mem = s.mem.write (s.reg d).toNat (s.reg r)) := by
  obtain ⟨-, ⟨-, rfl⟩ | ⟨-, -, rfl⟩ | ⟨i, hi, hx | ⟨f, -, rfl⟩⟩⟩ := step_next h
  · exact ⟨rfl, .inl rfl⟩
  · exact ⟨rfl, .inl rfl⟩
  · obtain ⟨hc, hm | ⟨d, r, rfl, hw⟩⟩ := exec_memory hx
    · exact ⟨hc, .inl hm⟩
    · exact ⟨hc, .inr ⟨d, r, hi, hw⟩⟩
  · exact ⟨rfl, .inl rfl⟩

theorem AtMostOneWrite.of_step (h : step s = .next t) : AtMostOneWrite s t := by
  obtain ⟨hc, hm | ⟨d, r, -, hw⟩⟩ := step_memory h
  · exact .of_same hc hm
  · exact ⟨hc, .inr ⟨s.reg d, s.reg r, hw⟩⟩

/-- A request writes at most the one word of its load_word, or of the step it asks for (10_state.md R28). -/
theorem AtMostOneWrite.of_serve (q : Request) (s : State) : AtMostOneWrite s (serve q s).2 := by
  cases q with
  | loadWord a v =>
    rw [serve]
    split
    · next hw => exact .of_memWrite hw
    · exact .of_same rfl rfl
  | step =>
    rw [serve]
    split
    · next hn => exact .of_step hn
    · exact .of_same rfl rfl
    · exact .of_same rfl rfl
  | reset | inspect | snapshot => exact .of_same rfl rfl

end Sys2Proof.Machine

namespace Sys2Proof.Proofs

open Sys2Proof.Machine

/-- Settles O47: a step keeps the store or makes one write inside it. -/
theorem stepKeepsTheInvariant : Obligations.StepKeepsTheInvariant := by
  intro s t hi h
  have hw : AtMostOneWrite s t := .of_step h
  exact ⟨hw.keeps_inv hi, hw.1⟩

/-- Settles O49: a request, the step included, keeps the store or makes one write inside it. -/
theorem requestsKeepTheInvariant : Obligations.RequestsKeepTheInvariant := by
  intro q s hi
  have hw : AtMostOneWrite s (serve q s).2 := .of_serve q s
  exact ⟨hw.keeps_inv hi, hw.1⟩

/-- Settles O2, by what a read returns after a write. -/
theorem writeReplacesOneWordOrFaults : Obligations.WriteReplacesOneWordOrFaults := by
  refine fun acc a v s => ⟨fun n hn => ?_, fun ho => memWrite_outside ho.not_inStore⟩
  obtain rfl := hn.toNat_eq
  exact ⟨_, memWrite_inStore hn.inStore, Memory.read_write_self _ _ _,
    fun b hb => (Memory.read_write _ _ _ _).trans (if_neg hb), fun _ => rfl, rfl, rfl, rfl, rfl, rfl⟩

/-- Settles O43: a step that did not keep the store fetched a store, and only the word it wrote reads differently. -/
theorem onlyStoreChangesMemory : Obligations.OnlyStoreChangesMemory := by
  intro s t a h changed
  obtain ⟨-, hm | ⟨d, r, hi, hs, hm⟩⟩ := step_memory h
  · exact absurd (congrArg (·.read a) hm) changed
  · have ha : a = (s.reg d).toNat := by
      by_contra hne
      exact changed (by rw [hm, Memory.read_write, if_neg hne])
    subst ha
    exact ⟨d, r, hi, hs.namesAddress, by rw [hm, Memory.read_write_self]⟩

/-- Settles O1: an address that names a word of the store is its own unsigned reading, so nothing is reduced. -/
theorem readReturnsTheWordOrFaults : Obligations.ReadReturnsTheWordOrFaults := by
  refine fun acc a s => ⟨fun n hn => ?_, fun ho => memRead_outside ho.not_inStore⟩
  obtain rfl := hn.toNat_eq
  exact memRead_inStore hn.inStore

end Sys2Proof.Proofs
end

section
/-! PROOFS of the statements about the encoding (30_encoding.md): the laws of words and fields, of the text of numbers and of
the assembler's operations, then each statement. -/

namespace Sys2Proof

/-! Laws of packed words and their decoding -/

@[simp] theorem upperBits_packWord (op : BitVec 4) (a1 a2 : RegField) : upperBits (packWord op a1 a2) = 0 :=
  (Laws.packWord_fields op a1 a2).1

@[simp] theorem opcodeField_packWord (op : BitVec 4) (a1 a2 : RegField) : opcodeField (packWord op a1 a2) = op :=
  (Laws.packWord_fields op a1 a2).2.1

@[simp] theorem arg1Field_packWord (op : BitVec 4) (a1 a2 : RegField) : arg1Field (packWord op a1 a2) = a1 :=
  (Laws.packWord_fields op a1 a2).2.2.1

@[simp] theorem arg2Field_packWord (op : BitVec 4) (a1 a2 : RegField) : arg2Field (packWord op a1 a2) = a2 :=
  (Laws.packWord_fields op a1 a2).2.2.2

/-- A word with bits 31:12 clear is packed of its own three fields. -/
theorem packWord_of_fields {w : Word} (h : upperBits w = 0) :
    packWord (opcodeField w) (arg1Field w) (arg2Field w) = w := by
  have join {n m : Nat} (k l : Nat) (hn : n = k + l) :
      w.extractLsb' n m ++ w.extractLsb' k l = w.extractLsb' k (m + l) :=
    BitVec.extractLsb'_append_extractLsb'_eq_extractLsb' hn
  calc packWord (opcodeField w) (arg1Field w) (arg2Field w)
    _ = upperBits w ++ opcodeField w ++ arg1Field w ++ arg2Field w := by
      rw [h]
      rfl
    _ = w.extractLsb' 0 32 := by
      rw [upperBits, opcodeField, arg1Field, arg2Field, join 8 4 rfl, join 4 4 rfl, join 0 4 rfl]
    _ = w := BitVec.extractLsb'_eq_self

/-- The value of a packed word (30_encoding.md R46). -/
theorem packWord_toNat (op : BitVec 4) (a1 a2 : RegField) :
    (packWord op a1 a2).toNat = op.toNat * 256 + a1.toNat * 16 + a2.toNat := by
  have h1 := Nat.shiftLeft_add_eq_or_of_lt a1.isLt op.toNat
  have h2 := Nat.shiftLeft_add_eq_or_of_lt a2.isLt (op.toNat <<< 4 + a1.toNat)
  simp only [packWord, BitVec.toNat_append, BitVec.toNat_ofNat, Nat.zero_mod, Nat.zero_shiftLeft, Nat.zero_or]
  rw [← h1, ← h2]
  omega

@[simp] theorem decode_packWord (op : BitVec 4) (a1 a2 : RegField) :
    decode (packWord op a1 a2) = .ok (instrOf op a1 a2) := by
  simp [decode]

/-- The recognized words are the packed ones. -/
theorem decode_ok_packed {w : Word} {i : Instr} (h : decode w = .ok i) :
    ∃ op a1 a2, w = packWord op a1 a2 ∧ i = instrOf op a1 a2 := by
  obtain ⟨hu, hi⟩ := Machine.decode_ok h
  exact ⟨_, _, _, (packWord_of_fields hu).symm, hi⟩

/-- The word written as the sum of its digits decodes to the row of the opcode map. -/
theorem decode_ofNat (op : BitVec 4) (a1 a2 : RegField) :
    decode (BitVec.ofNat 32 (256 * op.toNat + 16 * a1.toNat + a2.toNat)) = .ok (instrOf op a1 a2) := by
  have hw : 256 * op.toNat + 16 * a1.toNat + a2.toNat = (packWord op a1 a2).toNat := by
    rw [packWord_toNat]
    omega
  rw [hw, BitVec.ofNat_toNat, BitVec.setWidth_eq, decode_packWord]

theorem decode_encode (i : Instr) : decode (encode i) = .ok i := by
  cases i <;> exact decode_packWord _ _ _

theorem encode_injective : Function.Injective encode := by
  intro i j h
  have hd : decode (encode i) = decode (encode j) := congrArg decode h
  rw [decode_encode, decode_encode] at hd
  exact Except.ok.inj hd

/-! Laws of the opcode map -/

@[simp] theorem opcode_instrOf (op : BitVec 4) (a1 a2 : RegField) : (instrOf op a1 a2).opcode = op := by
  obtain ⟨k⟩ := op
  fin_cases k <;> rfl

theorem lengthWords_instrOf (op : BitVec 4) (a1 a2 : RegField) :
    (instrOf op a1 a2).lengthWords = if op = 2 then 2 else 1 := by
  obtain ⟨k⟩ := op
  fin_cases k <;> rfl

theorem wellFormed_instrOf (op : BitVec 4) {a1 a2 : RegField} (h1 : validField a1 = true) (h2 : validField a2 = true) :
    (instrOf op a1 a2).wellFormed = true := by
  obtain ⟨k⟩ := op
  fin_cases k <;> simp [instrOf, opcodeMap, Instr.wellFormed, Instr.usedFields, h1, h2]

/-! Laws of the significant bits -/

/-- A mask that keeps bits 31:8 acts on the two register fields alone. -/
theorem packWord_and_mask (op : BitVec 4) (a1 a2 m1 m2 : RegField) :
    packWord op a1 a2 &&& (BitVec.allOnes 20 ++ BitVec.allOnes 4 ++ m1 ++ m2) = packWord op (a1 &&& m1) (a2 &&& m2) := by
  have bits : (0#20 ++ op ++ a1 ++ a2) &&& (BitVec.allOnes 20 ++ BitVec.allOnes 4 ++ m1 ++ m2) =
      0#20 ++ op ++ (a1 &&& m1) ++ (a2 &&& m2) := by
    simp only [BitVec.and_append, BitVec.and_allOnes]
  exact bits

/-- The significant bits of a packed word are the word of its instruction: the ignored fields are written as 0
(30_encoding.md R48). -/
theorem packWord_and_significant (op : BitVec 4) (a1 a2 : RegField) :
    packWord op a1 a2 &&& (instrOf op a1 a2).significant = encode (instrOf op a1 a2) := by
  have halt := packWord_and_mask 0 a1 a2 0#4 0#4
  have loadc := packWord_and_mask 2 a1 a2 (BitVec.allOnes 4) 0#4
  rw [BitVec.and_zero, BitVec.and_zero] at halt
  rw [BitVec.and_allOnes, BitVec.and_zero] at loadc
  obtain ⟨k⟩ := op
  fin_cases k
  · exact halt
  · exact BitVec.and_allOnes
  · exact loadc
  all_goals exact BitVec.and_allOnes

theorem significant_instrOf_opcode (i : Instr) (a1 a2 : RegField) :
    (instrOf i.opcode a1 a2).significant = i.significant := by
  cases i <;> rfl

/-- Bits 31:8 are significant in every instruction. -/
theorem significant_upper (i : Instr) :
    upperBits i.significant = BitVec.allOnes 20 ∧ opcodeField i.significant = BitVec.allOnes 4 := by
  cases i <;> simp only [Instr.significant] <;> decide

theorem upperBits_and_significant (w : Word) (i : Instr) : upperBits (w &&& i.significant) = upperBits w := by
  have h : upperBits i.significant = BitVec.allOnes 20 := (significant_upper i).1
  rw [upperBits] at h ⊢
  rw [BitVec.extractLsb'_and, h, BitVec.and_allOnes, upperBits]

theorem opcodeField_and_significant (w : Word) (i : Instr) : opcodeField (w &&& i.significant) = opcodeField w := by
  have h : opcodeField i.significant = BitVec.allOnes 4 := (significant_upper i).2
  rw [opcodeField] at h ⊢
  rw [BitVec.extractLsb'_and, h, BitVec.and_allOnes, opcodeField]

/-- The word of an instruction has bits 31:12 clear and the instruction's opcode. -/
theorem encode_upper (i : Instr) : upperBits (encode i) = 0 ∧ opcodeField (encode i) = i.opcode := by
  cases i <;> exact ⟨upperBits_packWord _ _ _, opcodeField_packWord _ _ _⟩

/-- A word with the significant bits of an instruction's word is packed with its opcode, so its own instruction has the same
significant bits and the same word. -/
theorem decode_of_and_significant {w : Word} {i : Instr} (h : w &&& i.significant = encode i) : decode w = .ok i := by
  obtain ⟨hu, ho⟩ := encode_upper i
  rw [← h, upperBits_and_significant] at hu
  rw [← h, opcodeField_and_significant] at ho
  rw [← packWord_of_fields hu, ho] at h ⊢
  have he : encode (instrOf i.opcode (arg1Field w) (arg2Field w)) = encode i := by
    rw [← packWord_and_significant, significant_instrOf_opcode, h]
  rw [decode_packWord, encode_injective he]

end Sys2Proof

namespace Sys2Proof.Machine

/-! Laws of results -/

section
variable {ε α β : Type} {x : Except ε α}

theorem exists_ok_of_map_ok {f : α → β} {y : β} (h : x.map f = .ok y) : ∃ a, x = .ok a ∧ f a = y := by
  cases x with
  | ok a => exact ⟨a, rfl, Except.ok.inj h⟩
  | error e => cases h

theorem exists_ok_of_bind_ok {f : α → Except ε β} {y : β} (h : x.bind f = .ok y) : ∃ a, x = .ok a ∧ f a = .ok y := by
  cases x with
  | ok a => exact ⟨a, rfl, h⟩
  | error e => cases h

theorem exists_error_of_not_ok (h : ∀ a, x ≠ .ok a) : ∃ e, x = .error e := by
  cases x with
  | ok a => exact absurd rfl (h a)
  | error e => exact ⟨e, rfl⟩

end

/-! Laws of the instruction text -/

theorem digitValue_hexDigit (d : BitVec 4) : digitValue 16 (hexDigit d) = some d.toNat := by
  obtain ⟨k⟩ := d
  fin_cases k <;> rfl

theorem readDigits_hexDigit (acc : Nat) (d : BitVec 4) (cs : Token) :
    readDigits 16 acc (hexDigit d :: cs) = readDigits 16 (acc * 16 + d.toNat) cs := by
  rw [readDigits, digitValue_hexDigit]

theorem readNumber_instructionText (op : BitVec 4) (a1 a2 : RegField) :
    readNumber 16 (instructionText op a1 a2) = some (op.toNat * 256 + a1.toNat * 16 + a2.toNat) := by
  have zeros : readNumber 16 (instructionText op a1 a2) = readDigits 16 0 [hexDigit op, hexDigit a1, hexDigit a2] := rfl
  rw [zeros, readDigits_hexDigit, readDigits_hexDigit, readDigits_hexDigit, readDigits]
  congr 1
  omega

/-! Laws of the mnemonic table -/

theorem mnemonicTable_nodup : mnemonicTable.toList.Nodup := by decide

/-- The lookup finds the one index at which the table holds the mnemonic in lower case. -/
theorem lookupOpcode_eq_some_iff {m : Token} {op : BitVec 4} :
    lookupOpcode m = some op ↔ mnemonicTable.toList[op.toNat]? = some (m.map Char.toLower) := by
  simp only [lookupOpcode, Option.map_eq_some_iff, List.find?_range_eq_some, beq_iff_eq, List.mem_range]
  constructor
  · rintro ⟨k, ⟨hk, hlt, -⟩, rfl⟩
    rwa [BitVec.toNat_ofNat, Nat.mod_eq_of_lt hlt]
  · intro h
    refine ⟨op.toNat, ⟨h, op.isLt, fun j hj => ?_⟩, by simp⟩
    have hne : mnemonicTable.toList[j]? ≠ some (m.map Char.toLower) := fun hj' =>
      hj.ne ((List.getElem?_inj (hj.trans (by simpa using op.isLt)) mnemonicTable_nodup).1 (hj'.trans h.symm))
    simpa using hne

/-! Laws of the operands -/

/-- A token is accepted as a register exactly when it spells the number of one (30_encoding.md R52). -/
theorem readOperand_ok_iff {t : Token} {a : RegField} :
    readOperand t = .ok a ↔ ∃ r : Reg, readInteger t = some (r.val : Int) ∧ a = fieldOf r := by
  unfold readOperand
  split
  · next n hn =>
    rw [hn]
    split
    · next hr =>
      lift n to Nat using hr.1
      constructor
      · intro h
        injection h with h
        exact ⟨⟨n, by omega⟩, rfl, h.symm.trans (BitVec.ofInt_natCast ..)⟩
      · rintro ⟨r, h, rfl⟩
        obtain rfl : n = r.val := by simpa using h
        rw [BitVec.ofInt_natCast]
        rfl
    · next hr =>
      refine iff_of_false nofun ?_
      rintro ⟨r, h, -⟩
      obtain rfl : n = r.val := by simpa using h
      omega
  · next hn => simp [hn]

theorem readOperand_valid {t : Token} {a : RegField} (h : readOperand t = .ok a) : validField a = true := by
  obtain ⟨r, -, rfl⟩ := readOperand_ok_iff.1 h
  simp [validField]

/-- A token that spells a number in [0, 7] is accepted, as the field of that value. -/
theorem readOperand_of_range {t : Token} {n : Int} (h : readInteger t = some n) (hn : 0 ≤ n ∧ n ≤ 7) :
    ∃ a, readOperand t = .ok a ∧ (a.toNat : Int) = n := by
  lift n to Nat using hn.1
  exact ⟨fieldOf ⟨n, by omega⟩, readOperand_ok_iff.2 ⟨_, h, rfl⟩, by simp⟩

theorem range_of_readOperand {t : Token} {n : Int} {a : RegField} (h : readInteger t = some n) (ha : readOperand t = .ok a) :
    0 ≤ n ∧ n ≤ 7 := by
  obtain ⟨r, hr, -⟩ := readOperand_ok_iff.1 ha
  obtain rfl : n = r.val := by simpa [h] using hr
  omega

/-! Laws of encodeInstruction and readStatement -/

theorem encodeInstruction_one {t : Token} {a : RegField} (h : readOperand t = .ok a) :
    encodeInstruction 2 [t] = .ok (packWord 2 a 0) := by
  simp only [encodeInstruction, if_true, h, Except.map]

theorem encodeInstruction_two {op : BitVec 4} {t1 t2 : Token} {a1 a2 : RegField} (hop : op ≠ 2)
    (h1 : readOperand t1 = .ok a1) (h2 : readOperand t2 = .ok a2) :
    encodeInstruction op [t1, t2] = .ok (packWord op a1 a2) := by
  simp only [encodeInstruction, if_neg hop, h1, h2, Except.bind, Except.map]

theorem encodeInstruction_wrong_count {op : BitVec 4} {ts : List Token} (h : ts.length ≠ if op = 2 then 1 else 2) :
    encodeInstruction op ts = .error .argumentCountError := by
  unfold encodeInstruction
  split <;> next hop =>
    simp only [hop, if_true, if_false] at h
    split
    · exact absurd rfl h
    · rfl

/-- Every encoded instruction comes of operands that were all accepted, as many as the opcode takes. -/
theorem encodeInstruction_ok {op : BitVec 4} {ts : List Token} {w : Word} (h : encodeInstruction op ts = .ok w) :
    (∃ t a, op = 2 ∧ ts = [t] ∧ readOperand t = .ok a ∧ w = packWord 2 a 0) ∨
      ∃ t1 t2 a1 a2, op ≠ 2 ∧ ts = [t1, t2] ∧ readOperand t1 = .ok a1 ∧ readOperand t2 = .ok a2 ∧
        w = packWord op a1 a2 := by
  have count : ts.length = if op = 2 then 1 else 2 := by
    by_contra hc
    rw [encodeInstruction_wrong_count hc] at h
    cases h
  by_cases hop : op = 2
  · subst hop
    obtain ⟨t, rfl⟩ := List.length_eq_one_iff.1 count
    obtain ⟨a, ha, hw⟩ := exists_ok_of_map_ok h
    exact .inl ⟨t, a, rfl, rfl, ha, hw.symm⟩
  · rw [if_neg hop] at count
    obtain ⟨t1, t2, rfl⟩ := List.length_eq_two.1 count
    rw [encodeInstruction, if_neg hop] at h
    obtain ⟨a1, h1, h⟩ := exists_ok_of_bind_ok h
    obtain ⟨a2, h2, hw⟩ := exists_ok_of_map_ok h
    exact .inr ⟨t1, t2, a1, a2, hop, rfl, h1, h2, hw.symm⟩

/-- The word of an encoded instruction: its fields name registers, and the field no operand gives is 0. -/
theorem encodeInstruction_packed {op : BitVec 4} {ts : List Token} {w : Word} (h : encodeInstruction op ts = .ok w) :
    ∃ a1 a2, validField a1 = true ∧ validField a2 = true ∧ w = packWord op a1 a2 := by
  obtain ⟨t, a, rfl, -, ha, rfl⟩ | ⟨t1, t2, a1, a2, -, -, h1, h2, rfl⟩ := encodeInstruction_ok h
  · exact ⟨a, 0, readOperand_valid ha, rfl, rfl⟩
  · exact ⟨a1, a2, readOperand_valid h1, readOperand_valid h2, rfl⟩

/-- The instruction of an assembled word, with the length that says whether a constant line follows. -/
theorem encodeInstruction_decodes {op : BitVec 4} {ts : List Token} {w : Word} (h : encodeInstruction op ts = .ok w) :
    ∃ i, decode w = .ok i ∧ i.wellFormed = true ∧ i.lengthWords = if op = 2 then 2 else 1 := by
  obtain ⟨a1, a2, h1, h2, rfl⟩ := encodeInstruction_packed h
  exact ⟨_, decode_packWord op a1 a2, wellFormed_instrOf op h1 h2, lengthWords_instrOf op a1 a2⟩

/-- A statement that is no terminator is the word of a well-formed instruction, with a constant line for an instruction of
two words (30_encoding.md R54). -/
theorem readStatement_ok {line : List Char} {st : Statement} (h : readStatement line = .ok st) :
    st = .terminator ∨ ∃ w i, decode w = .ok i ∧ i.wellFormed = true ∧
      (st = .single w ∧ i.lengthWords = 1 ∨ st = .withConstant w ∧ i.lengthWords = 2) := by
  unfold readStatement at h
  split at h
  · cases h
  · split at h
    · exact .inl (Except.ok.inj h).symm
    · split at h
      · cases h
      · obtain ⟨w, hw, rfl⟩ := exists_ok_of_map_ok h
        obtain ⟨i, hi, hwf, hlen⟩ := encodeInstruction_decodes hw
        refine .inr ⟨w, i, hi, hwf, ?_⟩
        split at hlen
        · next hop => exact .inr ⟨if_pos hop, hlen⟩
        · next hop => exact .inl ⟨if_neg hop, hlen⟩

end Sys2Proof.Machine

namespace Sys2Proof.Proofs

open Sys2Proof.Machine

/-- Settles O6: the word of an instruction is packed of its opcode and its fields. -/
theorem decodeOfEncode : Obligations.DecodeOfEncode := decode_encode

/-- Settles O7: a recognized word is packed of its fields, and its instruction ignores what its mask clears. -/
theorem decodeExactly : Obligations.DecodeExactly := by
  refine fun w i => ⟨fun h => ?_, decode_of_and_significant⟩
  obtain ⟨op, a1, a2, rfl, rfl⟩ := decode_ok_packed h
  exact packWord_and_significant op a1 a2

/-- Settles O9: each hex digit is read back as its field, and the packed word has the same sum as value. -/
theorem instructionTextSpellsTheWord : Obligations.InstructionTextSpellsTheWord :=
  ⟨fun op a1 a2 => ⟨rfl, rfl, readNumber_instructionText op a1 a2, packWord_toNat op a1 a2⟩,
    fun _ _ h => encodeInstruction_one h⟩

/-- Settles O10: operands in [0, 7] are accepted as fields of their value and come back out of the packed word; an encoding
that succeeds had only such operands, as many as the opcode takes. -/
theorem assemblerRoundTrip : Obligations.AssemblerRoundTrip := by
  refine ⟨fun op t1 t2 n1 n2 hop hn1 hn2 => ⟨?_, ?_⟩, fun t1 n1 hn1 => ⟨?_, ?_⟩,
    fun op ts => encodeInstruction_wrong_count⟩
  · rintro ⟨hr1, hr2⟩
    obtain ⟨a1, ha1, rfl⟩ := readOperand_of_range hn1 hr1
    obtain ⟨a2, ha2, rfl⟩ := readOperand_of_range hn2 hr2
    exact ⟨_, _, encodeInstruction_two hop ha1 ha2, decode_packWord _ _ _, by simp⟩
  · refine fun hr => exists_error_of_not_ok fun w hw => hr ?_
    obtain ⟨_, _, rfl, -⟩ | ⟨_, _, a1, a2, -, hts, ha1, ha2, -⟩ := encodeInstruction_ok hw
    · exact absurd rfl hop
    · cases hts
      exact ⟨range_of_readOperand hn1 ha1, range_of_readOperand hn2 ha2⟩
  · intro hr
    obtain ⟨a, ha, rfl⟩ := readOperand_of_range hn1 hr
    exact ⟨_, _, encodeInstruction_one ha, decode_packWord _ _ _, by simp⟩
  · refine fun hr => exists_error_of_not_ok fun w hw => hr ?_
    obtain ⟨_, a, -, hts, ha, -⟩ | ⟨_, _, _, _, hop, -⟩ := encodeInstruction_ok hw
    · cases hts
      exact range_of_readOperand hn1 ha
    · exact absurd rfl hop

/-- Settles O11: the lookup goes by the entry at the opcode's index, and no two entries are the same. -/
theorem mnemonicLookup : Obligations.MnemonicLookup := by
  intro m op
  have hop : op.toNat < mnemonicTable.toList.length := by simpa using op.isLt
  rw [lookupOpcode_eq_some_iff, List.getElem?_eq_getElem hop, Option.some_inj, eq_comm, Vector.getElem_toList]

/-- Settles O13: an emitted word is an encoded instruction of valid fields, and its opcode decides both its length and whether
a constant line follows. -/
theorem assembledWordsAreWellFormed : Obligations.AssembledWordsAreWellFormed := by
  refine fun line w => ⟨fun h => ?_, fun h => ?_⟩
  · obtain hst | ⟨_, i, hi, hwf, ⟨hst, hlen⟩ | ⟨hst, -⟩⟩ := readStatement_ok h <;> cases hst
    exact ⟨i, hi, hwf, hlen⟩
  · obtain hst | ⟨_, i, hi, hwf, ⟨hst, -⟩ | ⟨hst, hlen⟩⟩ := readStatement_ok h <;> cases hst
    exact ⟨i, hi, hwf, hlen⟩

/-- Settles O5: each written-out word is the sum of the digits of one row of the opcode map. -/
theorem opcodeMapWords : Obligations.OpcodeMapWords := fun a b =>
  ⟨decode_ofNat 0 a b, decode_ofNat 1 a b, decode_ofNat 2 a b, decode_ofNat 3 a b,
    decode_ofNat 4 a b, decode_ofNat 5 a b, decode_ofNat 6 a b, decode_ofNat 7 a b,
    decode_ofNat 8 a b, decode_ofNat 9 a b, decode_ofNat 10 a b, decode_ofNat 11 a b,
    decode_ofNat 12 a b, decode_ofNat 13 a b, decode_ofNat 14 a b, decode_ofNat 15 a b⟩

end Sys2Proof.Proofs
end

section
/-! PROOFS of the statements about the fetch and the views (40_cycle.md R59, R65): the laws of the snapshot, then each
statement. -/

namespace Sys2Proof.Machine

/-! Laws of the snapshot (20_memory.md R41) -/

@[simp] theorem length_snapshot (s : State) : (snapshot s).length = s.cfg.capacity := by
  simp [snapshot]

/-- The entry at position `a` is the word at address `a`, so the dump is in ascending order of address. -/
theorem getElem?_snapshot {s : State} {a : Nat} (h : a < s.cfg.capacity) :
    (snapshot s)[a]? = some (a, s.mem.read a) := by
  simp [snapshot, h]

end Sys2Proof.Machine

namespace Sys2Proof.Proofs

open Sys2Proof.Machine

/-- Settles O3: the fetch is decided by whether the PC names a word of the store; outside it, the step only latches the
fault. -/
theorem fetchReadsTheWordAndAdvances : Obligations.FetchReadsTheWordAndAdvances := by
  refine fun s => ⟨fun n hn => ?_, fun ho => ?_⟩
  · obtain rfl := hn.toNat_eq
    exact ⟨_, fetchWord_inStore hn.inStore, rfl, rfl, fun _ => rfl, fun _ => rfl, rfl, rfl, rfl⟩
  · have hs : ¬ InStore s s.pc := ho.not_inStore
    exact ⟨fetchWord_outside hs, fun running => ⟨_, step_outside running hs, takeFault_ir s _, takeFault_pc s _⟩⟩

/-- Settles O52: the two views answer `inspect s` and `snapshot s` beside the state itself. -/
theorem viewsShowTheStateAndChangeNothing : Obligations.ViewsShowTheStateAndChangeNothing := fun s =>
  ⟨⟨inspect s, rfl, rfl, rfl, rfl⟩, snapshot s, rfl, length_snapshot s, fun _ => getElem?_snapshot⟩

end Sys2Proof.Proofs
end

section
/-! PROOFS of the statements about the memory instructions (41_memory_ops.md): what each does once its operands name
registers, then each statement. -/

namespace Sys2Proof.Machine

/-! The memory instructions over registers: one access, then what is written -/

theorem exec_load_fieldOf (d r : Reg) (s : State) :
    exec (.load (fieldOf d) (fieldOf r)) s =
      orRaise (memRead .load (s.reg r) s) fun v => .next (s.setReg d v) :=
  withArgs_fieldOf d r _

theorem exec_loadc_fieldOf (d : Reg) (s : State) :
    exec (.loadc (fieldOf d)) s = orRaise (fetchWord .loadcImm s) fun t => .next (t.setReg d t.ir) :=
  withArg1_fieldOf d _

theorem exec_store_fieldOf (d r : Reg) (s : State) :
    exec (.store (fieldOf d) (fieldOf r)) s = orRaise (memWrite .store (s.reg d) (s.reg r) s) .next :=
  withArgs_fieldOf d r _

/-- The frame of a register write. -/
theorem State.onlyReg_setReg (s : State) (d : Reg) (v : Word) : OnlyReg s (s.setReg d v) d :=
  ⟨fun r hr => s.reg_setReg_ne r d v hr, rfl, rfl, ⟨rfl, rfl, rfl⟩, fun _ => rfl⟩

end Sys2Proof.Machine

namespace Sys2Proof.Proofs

open Sys2Proof.Machine

/-- Settles O15: the read answers the named word, and writing it to `x[a1]` changes nothing else. -/
theorem loadResult : Obligations.LoadResult := by
  intro d r s n hn
  have read : memRead .load (s.reg r) s = .ok (s.mem.read n) := (readReturnsTheWordOrFaults .load (s.reg r) s).1 n hn
  refine ⟨s.setReg d (s.mem.read n), ?_, s.reg_setReg_self d _, s.onlyReg_setReg d _⟩
  rw [exec_load_fieldOf, read, orRaise_ok]

/-- Settles O16: the fetch of the constant moves only the IR and the PC, and the write that follows only `x[a1]`. -/
theorem loadcResult : Obligations.LoadcResult := by
  intro d s n hn
  obtain rfl := hn.toNat_eq
  refine ⟨_, by rw [exec_loadc_fieldOf, fetchWord_inStore hn.inStore, orRaise_ok], ?_⟩
  obtain ⟨regs, pc, ir, status, mem⟩ := State.onlyReg_setReg
    { s with ir := s.mem.read s.pc.toNat, pc := s.pc + 1 } d (s.mem.read s.pc.toNat)
  exact ⟨State.reg_setReg_self _ d _, ir, pc, regs, status, mem⟩

/-- Settles O17: the outcome is that of the write, which replaces the one named word. -/
theorem storeResult : Obligations.StoreResult := by
  intro d r s n hn
  obtain ⟨t, write, replaced⟩ := (writeReplacesOneWordOrFaults .store (s.reg d) (s.reg r) s).1 n hn
  exact ⟨t, by rw [exec_store_fieldOf, write, orRaise_ok], replaced⟩

end Sys2Proof.Proofs
end

section
/-! PROOFS of the statements about the logical, bitwise and shift instructions (43_logic_shift.md): what the two operand
shapes do once their fields name registers, what each value they compute is, then each statement. -/

namespace Sys2Proof.Machine

/-! The two operand shapes over registers (10_state.md R19) -/

theorem binary_fieldOf (f : Word → Word → Word) (d r : Reg) (s : State) :
    binary f (fieldOf d) (fieldOf r) s = .next (s.setReg d (f (s.reg d) (s.reg r))) :=
  withArgs_fieldOf d r _

theorem unary_fieldOf (f : Word → Word) (d r : Reg) (s : State) :
    unary f (fieldOf d) (fieldOf r) s = .next (s.setReg d (f (s.reg r))) :=
  withArgs_fieldOf d r _

/-- The binary shape completes, and writes its value to the destination alone. -/
theorem binary_completes (f : Word → Word → Word) (d r : Reg) (s : State) :
    ∃ t, binary f (fieldOf d) (fieldOf r) s = .next t ∧ OnlyReg s t d ∧ t.reg d = f (s.reg d) (s.reg r) :=
  ⟨_, binary_fieldOf f d r s, s.onlyReg_setReg d _, s.reg_setReg_self d _⟩

/-- The unary shape completes, and writes its value to the destination alone. -/
theorem unary_completes (f : Word → Word) (d r : Reg) (s : State) :
    ∃ t, unary f (fieldOf d) (fieldOf r) s = .next t ∧ OnlyReg s t d ∧ t.reg d = f (s.reg r) :=
  ⟨_, unary_fieldOf f d r s, s.onlyReg_setReg d _, s.reg_setReg_self d _⟩

/-! The values -/

theorem aluAnd_eq (x y : Word) : aluAnd x y = if x ≠ 0 ∧ y ≠ 0 then 1 else 0 := by
  simp only [aluAnd, ofTruth, Bool.and_eq_true, nonzero_iff]

theorem aluOr_eq (x y : Word) : aluOr x y = if x ≠ 0 ∨ y ≠ 0 then 1 else 0 := by
  simp only [aluOr, ofTruth, Bool.or_eq_true, nonzero_iff]

theorem aluNot_eq (y : Word) : aluNot y = if y ≠ 0 then 0 else 1 := by
  simp only [aluNot, ofTruth, Bool.not_eq_true', ← Bool.not_eq_true, nonzero_iff, ite_not]

/-- Bit 31 kept above bits 31:1 is the arithmetic shift by one place (43_logic_shift.md R80). -/
theorem aluRshift_eq_sshiftRight (y : Word) : aluRshift y = y.sshiftRight 1 := by
  refine BitVec.eq_of_getLsbD_eq fun k hk => ?_
  rw [aluRshift, BitVec.getLsbD_append, BitVec.getLsbD_sshiftRight]
  by_cases low : k < 31
  · simp [low, hk, show 1 + k < 32 by omega]
  · obtain rfl : k = 31 := by omega
    simp [BitVec.msb_eq_getLsbD_last]

theorem sint_aluRshift (y : Word) : sint (aluRshift y) = sint y / 2 := by
  rw [aluRshift_eq_sshiftRight, sint, BitVec.toInt_sshiftRight, Int.shiftRight_eq_div_pow]
  rfl

end Sys2Proof.Machine

namespace Sys2Proof.Proofs

open Sys2Proof.Machine

/-- Settles O27: the value is the floor quotient of the source by 2, which the two bounds describe. -/
theorem rshiftResult : Obligations.RshiftResult := by
  intro d r s
  obtain ⟨t, run, only, value⟩ := unary_completes aluRshift d r s
  have half : sint (t.reg d) = sint (s.reg r) / 2 := by rw [value, sint_aluRshift]
  exact ⟨t, run, only, by omega, by omega⟩

/-- Settles O23: and has the binary shape. -/
theorem andResult : Obligations.AndResult := by
  intro d r s
  obtain ⟨t, run, only, value⟩ := binary_completes aluAnd d r s
  exact ⟨t, run, only, value.trans (aluAnd_eq _ _)⟩

/-- Settles O24: or has the binary shape. -/
theorem orResult : Obligations.OrResult := by
  intro d r s
  obtain ⟨t, run, only, value⟩ := binary_completes aluOr d r s
  exact ⟨t, run, only, value.trans (aluOr_eq _ _)⟩

/-- Settles O25: not has the unary shape. -/
theorem notResult : Obligations.NotResult := by
  intro d r s
  obtain ⟨t, run, only, value⟩ := unary_completes aluNot d r s
  exact ⟨t, run, only, value.trans (aluNot_eq _)⟩

/-- Settles O28: bwc has the binary shape, and each bit of its value is the "and" of the operands' bits. -/
theorem bwcResult : Obligations.BwcResult := by
  intro d r s
  obtain ⟨t, run, only, value⟩ := binary_completes aluBwc d r s
  exact ⟨t, run, only, fun k => by rw [value, aluBwc, BitVec.getLsbD_and]⟩

/-- Settles O29: bwd has the binary shape, and each bit of its value is the "or" of the operands' bits. -/
theorem bwdResult : Obligations.BwdResult := by
  intro d r s
  obtain ⟨t, run, only, value⟩ := binary_completes aluBwd d r s
  exact ⟨t, run, only, fun k => by rw [value, aluBwd, BitVec.getLsbD_or]⟩

end Sys2Proof.Proofs
end

section
/-! PROOFS of the statements about the conditional jump (44_control.md): where it leaves the PC once its operands name
registers, then the statement. -/

namespace Sys2Proof.Machine

/-- Both branches write the PC alone: the branch not taken writes back the value the PC has. -/
theorem exec_ifnz_fieldOf (c r : Reg) (s : State) :
    exec (.ifnz (fieldOf c) (fieldOf r)) s = .next (s.setPc (if s.reg c ≠ 0 then s.reg r else s.pc)) := by
  refine (withArgs_fieldOf c r _).trans ?_
  by_cases taken : s.reg c ≠ 0
  · rw [if_pos (nonzero_iff.mpr taken), if_pos taken]
  · rw [if_neg (mt nonzero_iff.mp taken), if_neg taken]
    rfl

/-- The frame of a PC write. -/
theorem State.setPc_frame (s : State) (v : Word) :
    SameRegs s (s.setPc v) ∧ (s.setPc v).ir = s.ir ∧ SameStatus s (s.setPc v) ∧ SameMemory s (s.setPc v) :=
  ⟨fun r => s.setPc_reg r v, s.setPc_ir v, ⟨s.setPc_status v, s.setPc_cfg v, s.setPc_diag v⟩, fun _ => rfl⟩

end Sys2Proof.Machine

namespace Sys2Proof.Proofs

open Sys2Proof.Machine

/-- Settles O30: the outcome is one PC write, of the target or of the PC itself. -/
theorem ifResult : Obligations.IfResult := fun c r s =>
  ⟨_, exec_ifnz_fieldOf c r s, s.setPc_pc _, s.setPc_frame _⟩

end Sys2Proof.Proofs
end

section
/-! PROOFS of the statements about exceptions (60_exceptions.md): the laws of addresses outside the store, of well-formed
operands and of div, what a step runs, then each statement. -/

namespace Sys2Proof.Machine

/-! Addresses and well-formed operands -/

/-- Every address is inside the store or outside it, a negative one outside (20_memory.md R29). -/
theorem inStore_or_outsideStore (s : State) (a : Word) : InStore s a ∨ OutsideStore s a := by
  by_cases h : InStore s a
  · exact .inl h
  · exact .inr (by omega)

/-- A used field of a well-formed instruction names a register (10_state.md R20). -/
theorem exists_fieldOf_of_wellFormed {i : Instr} {a : RegField} (h : i.wellFormed = true) (ha : a ∈ i.usedFields) :
    ∃ r, a = fieldOf r :=
  ⟨_, eq_fieldOf (of_decide_eq_true (List.all_eq_true.1 h a ha))⟩

/-- Both fields of a well-formed instruction of two operands name registers. -/
theorem exists_fieldOf_pair {i : Instr} {a1 a2 : RegField} (h : i.wellFormed = true) (hf : i.usedFields = [a1, a2]) :
    ∃ d r, a1 = fieldOf d ∧ a2 = fieldOf r := by
  obtain ⟨d, hd⟩ := exists_fieldOf_of_wellFormed h (a := a1) (by simp [hf])
  obtain ⟨r, hr⟩ := exists_fieldOf_of_wellFormed h (a := a2) (by simp [hf])
  exact ⟨d, r, hd, hr⟩

/-! div and the step that runs it -/

/-- Both branches of div complete: a zero divisor emits its event in place of the write (60_exceptions.md R92). -/
theorem exec_div_fieldOf (d r : Reg) (s : State) :
    exec (.div (fieldOf d) (fieldOf r)) s =
      .next (if s.reg r = 0 then emit .divideByZero s else s.setReg d (aluDiv (s.reg d) (s.reg r))) :=
  (withArgs_fieldOf d r _).trans (apply_ite Host.Outcome.next _ _ _).symm

/-- A step that fetches an instruction runs it in the state after the fetch and commits its outcome (40_cycle.md R58). -/
theorem step_fetchesInstr {s : State} {i : Instr} (h : s.status = .running) (hi : FetchesInstr s i) :
    step s = commit s (exec i (fetched s)) := by
  obtain ⟨hs, hd⟩ := hi
  rw [step_inside h hs, decodeAndRun, fetched_ir, hd]

end Sys2Proof.Machine

namespace Sys2Proof.Proofs

open Sys2Proof.Machine

/-- Settles O33: the one access of each instruction raises its fault, which ends the instruction. -/
theorem accessOutsideTheStoreFaults : Obligations.AccessOutsideTheStoreFaults := by
  refine fun d r s => ⟨fun ho => ?_, fun ho => ?_, fun ho => ?_⟩
  · rw [exec_load_fieldOf, memRead_outside ho.not_inStore, orRaise_error]
  · rw [exec_loadc_fieldOf, fetchWord_outside ho.not_inStore, orRaise_error]
  · rw [exec_store_fieldOf, memWrite_outside ho.not_inStore, orRaise_error]

/-- Settles O34: operands that name registers raise nothing, so only an access outside the store is left to fault. -/
theorem wellFormedInstructionsRun : Obligations.WellFormedInstructionsRun := by
  intro i s wf
  cases i with
  | halt => exact .inl ⟨_, rfl⟩
  | load a1 a2 =>
    obtain ⟨d, r, rfl, rfl⟩ := exists_fieldOf_pair wf rfl
    obtain hs | ho := inStore_or_outsideStore s (s.reg r)
    · obtain ⟨t, run, -⟩ := loadResult d r s _ hs.namesAddress
      exact .inl ⟨t, run⟩
    · obtain ⟨fault, -, -⟩ := accessOutsideTheStoreFaults d r s
      exact .inr ⟨.load, s.reg r, fault ho, ho, .inl ⟨_, _, rfl, rfl, (fieldValue_fieldOf s r).symm⟩⟩
  | loadc a1 =>
    obtain ⟨d, rfl⟩ := exists_fieldOf_of_wellFormed (a := a1) wf List.mem_cons_self
    obtain hs | ho := inStore_or_outsideStore s s.pc
    · obtain ⟨t, run, -⟩ := loadcResult d s _ hs.namesAddress
      exact .inl ⟨t, run⟩
    · obtain ⟨-, fault, -⟩ := accessOutsideTheStoreFaults d d s
      exact .inr ⟨.loadcImm, s.pc, fault ho, ho, .inr (.inl ⟨_, rfl, rfl, rfl⟩)⟩
  | store a1 a2 =>
    obtain ⟨d, r, rfl, rfl⟩ := exists_fieldOf_pair wf rfl
    obtain hs | ho := inStore_or_outsideStore s (s.reg d)
    · obtain ⟨t, run, -⟩ := storeResult d r s _ hs.namesAddress
      exact .inl ⟨t, run⟩
    · obtain ⟨-, -, fault⟩ := accessOutsideTheStoreFaults d r s
      exact .inr ⟨.store, s.reg d, fault ho, ho, .inr (.inr ⟨_, _, rfl, rfl, (fieldValue_fieldOf s d).symm⟩)⟩
  | div a1 a2 =>
    obtain ⟨d, r, rfl, rfl⟩ := exists_fieldOf_pair wf rfl
    exact .inl ⟨_, exec_div_fieldOf d r s⟩
  | ifnz a1 a2 =>
    obtain ⟨c, r, rfl, rfl⟩ := exists_fieldOf_pair wf rfl
    exact .inl ⟨_, exec_ifnz_fieldOf c r s⟩
  | not a1 a2 | lshift a1 a2 | rshift a1 a2 =>
    obtain ⟨d, r, rfl, rfl⟩ := exists_fieldOf_pair wf rfl
    exact .inl ⟨_, unary_fieldOf _ d r s⟩
  | add a1 a2 | mul a1 a2 | sub a1 a2 | and a1 a2 | or a1 a2 | bwc a1 a2 | bwd a1 a2 =>
    obtain ⟨d, r, rfl, rfl⟩ := exists_fieldOf_pair wf rfl
    exact .inl ⟨_, binary_fieldOf _ d r s⟩

/-- Settles O39: the word is div's, so the step ends in the state after the fetch with the event emitted. -/
theorem divideByZeroContinues : Obligations.DivideByZeroContinues := by
  intro s n d r running hn hw zero
  obtain rfl := hn.toNat_eq
  have isDiv : decode (s.mem.read s.pc.toNat) = .ok (.div (fieldOf d) (fieldOf r)) := by
    rw [hw, ← fieldOf_toNat d, ← fieldOf_toNat r]
    exact decode_ofNat 7 (fieldOf d) (fieldOf r)
  have run : step s = .next (emit .divideByZero (fetched s)) := by
    rw [step_fetchesInstr running ⟨hn.inStore, isDiv⟩, exec_div_fieldOf, fetched_reg, if_pos zero, commit]
  exact ⟨_, run, rfl, running, rfl, rfl, fun _ => rfl, fun _ => rfl, rfl⟩

end Sys2Proof.Proofs
end

section
/-! PROOFS of the statements about the reset and the run (70_reset_and_hazards.md): what a budget does to a stopped machine
and to a run that has ended, then each statement. -/

namespace Sys2Proof.Machine

/-! The driver and its budget (00_scope.md R10) -/

/-- No budget moves a stopped machine. -/
theorem driver_stopped {s : State} (h : s.status ≠ .running) (fuel : Nat) : driver fuel s = (s, []) := by
  cases fuel with
  | zero => rfl
  | succ fuel => rw [driver, step_refused h]

/-- A budget beyond the one that ended a run adds nothing to it. -/
theorem driver_state_eq_of_le {s : State} {m n : Nat} (stopped : (driver m s).1.status ≠ .running) (le : m ≤ n) :
    (driver n s).1 = (driver m s).1 := by
  induction m generalizing s n with
  | zero => exact congrArg Prod.fst (driver_stopped stopped n)
  | succ m ih =>
    obtain ⟨n, rfl⟩ := Nat.exists_eq_add_one_of_ne_zero (Nat.ne_zero_of_lt le)
    rw [driver] at stopped ⊢
    rw [driver]
    cases hs : step s with
    | next t =>
      rw [hs] at stopped
      exact ih stopped (Nat.le_of_succ_le_succ le)
    | fault _ | refused _ => rfl

end Sys2Proof.Machine

namespace Sys2Proof.Proofs

open Sys2Proof.Machine

/-- Settles O54: of two budgets that end the run, the larger gives the end of the smaller. -/
theorem aRunHasOneEnd : Obligations.ARunHasOneEnd := by
  rintro s _ _ ⟨m, rfl, hm⟩ ⟨n, rfl, hn⟩
  obtain le | le := Nat.le_total m n
  · exact (driver_state_eq_of_le hm le).symm
  · exact driver_state_eq_of_le hn le

end Sys2Proof.Proofs
end

section
/-! PROOFS of the statements about unrecognized words and constants (30_encoding.md R48, R53): the laws of bits 31:12 and of
the word of a token, then each statement. -/

namespace Sys2Proof

/-- Bits 31:12 of a word, as a number (30_encoding.md R43). -/
theorem upperBits_toNat (w : Word) : (upperBits w).toNat = w.toNat / 4096 := by
  rw [upperBits, BitVec.extractLsb'_toNat, Nat.shiftRight_eq_div_pow]
  omega

theorem upperBits_ne_zero_iff {w : Word} : upperBits w ≠ 0 ↔ 4096 ≤ w.toNat := by
  have zero : (0 : BitVec 20).toNat = 0 := rfl
  rw [Ne, ← BitVec.toNat_inj, upperBits_toNat, zero]
  omega

/-- The words that are no instruction (30_encoding.md R48). -/
theorem decode_unrecognized_iff {w : Word} : decode w = .error .unrecognized ↔ 4096 ≤ w.toNat := by
  rw [← upperBits_ne_zero_iff]
  exact ⟨Machine.decode_unrecognized, fun h => if_neg h⟩

end Sys2Proof

namespace Sys2Proof.Machine

/-- A token without characters spells no number. -/
theorem length_pos_of_readNumber {base n : Nat} {t : Token} (h : readNumber base t = some n) : 1 ≤ t.length := by
  cases t with
  | nil => cases h
  | cons c cs => exact Nat.succ_pos _

/-- The one way a hex token gives a word: at most 8 digits, which spell the word's value below 2^31 (30_encoding.md R53). -/
theorem readWord_ok_iff {t : Token} {w : Word} :
    readWord t = .ok w ↔ readNumber 16 t = some w.toNat ∧ t.length ≤ 8 ∧ w.toNat < 2147483648 := by
  unfold readWord
  split
  · next n hn =>
    rw [hn, Option.some_inj]
    split
    · next accepted =>
      obtain ⟨length, bound⟩ := accepted
      have value : (BitVec.ofNat 32 n).toNat = n := Nat.mod_eq_of_lt (by omega)
      constructor
      · intro h
        cases h
        rw [value]
        exact ⟨rfl, length, bound⟩
      · rintro ⟨rfl, -, -⟩
        rw [BitVec.ofNat_toNat, BitVec.setWidth_eq]
    · next refused =>
      refine iff_of_false nofun ?_
      rintro ⟨rfl, accepted⟩
      exact refused accepted
  · next hn => simp [hn]

end Sys2Proof.Machine

namespace Sys2Proof.Proofs

open Sys2Proof.Machine

/-- Settles O8: bits 31:12 are the quotient by 4096, which the sign bit of a negative word makes large. -/
theorem unrecognizedExactly : Obligations.UnrecognizedExactly := by
  refine fun w => ⟨decode_unrecognized_iff, fun negative => decode_unrecognized_iff.2 ?_⟩
  have signBit : 2 ^ 32 ≤ 2 * w.toNat := BitVec.toInt_neg_iff.1 negative
  omega

/-- Settles O12: a constant token is read as a hex token after its first two characters, and a number has a digit. -/
theorem constantTokens : Obligations.ConstantTokens := by
  intro t w
  rw [encodeConstant, readWord_ok_iff]
  constructor
  · rintro ⟨number, length, bound⟩
    exact ⟨length_pos_of_readNumber number, length, number, bound⟩
  · rintro ⟨-, length, number, bound⟩
    exact ⟨number, length, bound⟩

end Sys2Proof.Proofs
end

section
/-! PROOFS of the statements about the arithmetic instructions and the left shift (42_arithmetic.md, 43_logic_shift.md R79):
the laws of wrap32, what each computed value is as a word operation, then each statement. -/

namespace Sys2Proof.Machine

/-! The values: the narrowed exact results are the word operations (42_arithmetic.md R74) -/

/-- Narrowing moves an integer by a multiple of 2^32. -/
theorem sint_wrap32 (n : Int) : ∃ k : Int, sint (wrap32 n) = n + k * 2 ^ 32 := by
  refine ⟨-n.bdiv (2 ^ 32), ?_⟩
  rw [wrap32, sint, BitVec.toInt_ofInt, Int.bmod_eq_self_sub_mul_bdiv]
  push_cast
  ring

/-- The binary shape over an exact result, narrowed: it completes with that result modulo 2^32 (42_arithmetic.md R74). -/
theorem binary_wrap32_completes (g : Int → Int → Int) (d r : Reg) (s : State) :
    ∃ t, binary (fun x y => wrap32 (g (sint x) (sint y))) (fieldOf d) (fieldOf r) s = .next t ∧ OnlyReg s t d ∧
      ∃ k : Int, sint (t.reg d) = g (sint (s.reg d)) (sint (s.reg r)) + k * 2 ^ 32 := by
  obtain ⟨t, run, only, value⟩ := binary_completes (fun x y => wrap32 (g (sint x) (sint y))) d r s
  exact ⟨t, run, only, value ▸ sint_wrap32 _⟩

theorem aluAdd_eq_add (x y : Word) : aluAdd x y = x + y := by
  rw [aluAdd, wrap32, BitVec.ofInt_add, BitVec.ofInt_toInt, BitVec.ofInt_toInt]

theorem aluMul_eq_mul (x y : Word) : aluMul x y = x * y := by
  rw [aluMul, wrap32, BitVec.ofInt_mul, BitVec.ofInt_toInt, BitVec.ofInt_toInt]

theorem aluSub_eq_sub (x y : Word) : aluSub x y = x - y := by
  apply BitVec.eq_of_toInt_eq
  rw [aluSub, wrap32, BitVec.toInt_ofInt, BitVec.toInt_sub]

theorem aluDiv_eq_sdiv (x y : Word) : aluDiv x y = x.sdiv y := by
  apply BitVec.eq_of_toInt_eq
  rw [aluDiv, wrap32, BitVec.toInt_ofInt, BitVec.toInt_sdiv]

/-- Bits 30:0 kept above a 0 bit are the shift by one place. -/
theorem aluLshift_eq_shiftLeft (y : Word) : aluLshift y = y <<< 1 :=
  (BitVec.shiftLeft_eq_concat_of_lt (x := y) (n := 1) (by decide)).symm

/-! The quotient (42_arithmetic.md R73, R75) -/

/-- -1 is the one word whose signed value is -1. -/
theorem sint_eq_neg_one_iff {y : Word} : sint y = -1 ↔ y = -1#32 :=
  BitVec.toInt_inj (y := -1#32)

/-- The one quotient that leaves the range of a word is given back as the dividend. -/
theorem aluDiv_least_neg_one {y : Word} (h : sint y = -1) : aluDiv 0x80000000 y = 0x80000000 := by
  rw [aluDiv_eq_sdiv, sint_eq_neg_one_iff.1 h]
  exact BitVec.intMin_sdiv_neg_one

/-- Every other quotient is the exact one, rounded toward zero. -/
theorem sint_aluDiv {x y : Word} (h : ¬ (x = 0x80000000 ∧ sint y = -1)) : sint (aluDiv x y) = (sint x).tdiv (sint y) := by
  rw [aluDiv_eq_sdiv]
  refine BitVec.toInt_sdiv_of_ne_or_ne x y ?_
  rwa [sint_eq_neg_one_iff, not_and_or] at h

/-- A truncated quotient that is not 0 is negative exactly when the signs differ. -/
theorem tdiv_neg_iff {a b : Int} (h : a.tdiv b ≠ 0) : a.tdiv b < 0 ↔ ¬ (a < 0 ↔ b < 0) := by
  have sign : (a.tdiv b).sign = a.sign * b.sign := by
    rw [Int.sign_tdiv, if_neg]
    exact fun small => h (Int.natAbs_eq_zero.1 ((Int.natAbs_tdiv a b).trans (Nat.div_eq_of_lt small)))
  have hab : a ≠ 0 ∧ b ≠ 0 := by
    constructor <;> rintro rfl <;> simp at h
  rw [← Int.sign_neg_iff, sign, mul_neg_iff]
  simp only [Int.sign_pos_iff, Int.sign_neg_iff]
  omega

end Sys2Proof.Machine

namespace Sys2Proof.Proofs

open Sys2Proof.Machine

/-- Settles O18: add has the binary shape and narrows the exact sum. -/
theorem addResult : Obligations.AddResult := binary_wrap32_completes (· + ·)

/-- Settles O19: mul has the binary shape and narrows the exact product. -/
theorem mulResult : Obligations.MulResult := binary_wrap32_completes (· * ·)

/-- Settles O20: sub has the binary shape and narrows the exact difference. -/
theorem subResult : Obligations.SubResult := binary_wrap32_completes (· - ·)

/-- Settles O21: a zero divisor only emits its event; any other quotient is the exact one but for the least word by -1. -/
theorem divResult : Obligations.DivResult := by
  intro d r s
  refine ⟨_, exec_div_fieldOf d r s, fun zero => ?_, fun nonzero => ?_⟩
  · rw [if_pos zero]
    exact ⟨fun q => emit_reg s q _, emit_pc s _, emit_ir s _, emit_status s _, emit_cfg s _, fun _ => rfl, emit_diag s _⟩
  · rw [if_neg nonzero, State.reg_setReg_self]
    refine ⟨s.onlyReg_setReg d _, ?_⟩
    split
    · next least =>
      obtain ⟨dividend, divisor⟩ := least
      rw [dividend]
      exact aluDiv_least_neg_one divisor
    · next inRange =>
      have quotient := sint_aluDiv inRange
      refine ⟨by rw [quotient]; exact Int.natAbs_tdiv _ _, fun ne => ?_⟩
      rw [quotient]
      refine tdiv_neg_iff fun zero => ne (BitVec.toInt_inj.1 ?_)
      exact quotient.trans zero

/-- Settles O22: each instruction writes the word operation, which both readings of the operands share. -/
theorem unsignedReadingGivesTheSameBits : Obligations.UnsignedReadingGivesTheSameBits := by
  refine fun d r s t => ⟨fun run => ?_, fun run => ?_, fun run => ?_⟩
  · cases (binary_fieldOf aluAdd d r s).symm.trans run
    rw [State.reg_setReg_self, aluAdd_eq_add, BitVec.toNat_add]
  · cases (binary_fieldOf aluMul d r s).symm.trans run
    rw [State.reg_setReg_self, aluMul_eq_mul, BitVec.toNat_mul]
  · cases (binary_fieldOf aluSub d r s).symm.trans run
    rw [State.reg_setReg_self, aluSub_eq_sub, BitVec.toNat_sub, Nat.add_comm]

/-- Settles O26: lshift has the unary shape, and a shift by one place doubles modulo 2^32. -/
theorem lshiftResult : Obligations.LshiftResult := by
  intro d r s
  obtain ⟨t, run, only, value⟩ := unary_completes aluLshift d r s
  refine ⟨t, run, only, ?_⟩
  rw [value, aluLshift_eq_shiftLeft, BitVec.toNat_shiftLeft, Nat.shiftLeft_eq, Nat.mul_comm, Nat.pow_one]

end Sys2Proof.Proofs
end

section
/-! PROOFS of the statements about the cycle and its outcomes (40_cycle.md, 60_exceptions.md): the checks of the register
fields, the status and the event an instruction leaves, the access it makes, what a step comes to, then each statement. -/

namespace Sys2Proof.Machine

variable {s t : State} {i : Instr} {f : Fault}

/-! The checks of the register fields (40_cycle.md R60) -/

/-- An instruction that uses a field checks arg1 before everything else. -/
theorem exec_checks_arg1 {a1 : RegField} {rest : List RegField} (h : i.usedFields = a1 :: rest) (s : State) :
    ∃ k : Reg → Result, exec i s = orRaise (checkArg .arg1 a1) k := by
  cases i with
  | halt => cases h
  | _ => cases h; exact ⟨_, rfl⟩

/-- An instruction that uses both fields checks them before everything else, arg1 first. -/
theorem exec_checks_args {a1 a2 : RegField} (h : i.usedFields = [a1, a2]) (s : State) :
    ∃ k : Reg → Reg → Result, exec i s = withArgs a1 a2 k := by
  cases i with
  | halt | loadc => cases h
  | _ => cases h; exact ⟨_, rfl⟩

theorem exec_bad_arg1 {a1 : RegField} {rest : List RegField} (used : i.usedFields = a1 :: rest) (bad : 8 ≤ a1.toNat)
    (s : State) : exec i s = .fault (.registerIndexError .arg1 a1) := by
  obtain ⟨k, run⟩ := exec_checks_arg1 used s
  rw [run, checkArg_bad (Nat.not_lt.2 bad), orRaise_error]

theorem exec_bad_arg2 {a1 a2 : RegField} (used : i.usedFields = [a1, a2]) (good : a1.toNat < 8) (bad : 8 ≤ a2.toNat)
    (s : State) : exec i s = .fault (.registerIndexError .arg2 a2) := by
  obtain ⟨k, run⟩ := exec_checks_args used s
  rw [run, eq_fieldOf good, withArgs, checkArg_fieldOf, orRaise_ok, checkArg_bad (Nat.not_lt.2 bad), orRaise_error]

theorem usedFields_instrOf (op : BitVec 4) (a1 a2 : RegField) :
    (instrOf op a1 a2).usedFields = if op = 0 then [] else a1 :: if op = 2 then [] else [a2] := by
  obtain ⟨k⟩ := op
  fin_cases k <;> rfl

/-- The fields that must name registers for the row of an opcode to be well formed (30_encoding.md R47, R48). -/
theorem wellFormed_instrOf_iff {op : BitVec 4} {a1 a2 : RegField} :
    (instrOf op a1 a2).wellFormed = true ↔ op = 0 ∨ a1.toNat < 8 ∧ (op = 2 ∨ a2.toNat < 8) := by
  rw [Instr.wellFormed, usedFields_instrOf]
  by_cases halt : op = 0
  · simp [halt]
  rw [if_neg halt, or_iff_right halt]
  by_cases loadc : op = 2
  · simp [loadc, validField]
  · rw [if_neg loadc, or_iff_right loadc]
    simp [validField]

/-! The status and the event an instruction leaves -/

/-- The status an instruction leaves when it ends without a fault (40_cycle.md R61). -/
def statusAfter : Instr → State → Status
  | .halt, _ => .halted .op0
  | _, s => s.status

/-- The event on the `diag` port when an instruction ends without a fault (60_exceptions.md R92). -/
def diagAfter : Instr → State → Option Diagnostic
  | .div _ a2, s => if fieldValue s a2 = 0 then some .divideByZero else s.diag
  | _, s => s.diag

theorem statusAfter_instrOf (op : BitVec 4) (a1 a2 : RegField) (s : State) :
    statusAfter (instrOf op a1 a2) s = if op = 0 then .halted .op0 else s.status := by
  obtain ⟨k⟩ := op
  fin_cases k <;> rfl

theorem diagAfter_instrOf (op : BitVec 4) (a1 a2 : RegField) (s : State) :
    diagAfter (instrOf op a1 a2) s = if op = 7 ∧ fieldValue s a2 = 0 then some .divideByZero else s.diag := by
  obtain ⟨k⟩ := op
  fin_cases k <;> simp [instrOf, opcodeMap, diagAfter]

/-- What an instruction that answers a next state does to the status and the `diag` port (`exec_memory` and
`exec_pc_ir_regs` say the rest). -/
theorem exec_status_diag (h : exec i s = .next t) : t.status = statusAfter i s ∧ t.diag = diagAfter i s := by
  cases i with
  | halt =>
    cases h
    exact ⟨rfl, rfl⟩
  | load a1 a2 =>
    obtain ⟨d, r, -, -, h⟩ := withArgs_next h
    obtain ⟨v, -, h⟩ := orRaise_next h
    cases h
    exact ⟨rfl, rfl⟩
  | loadc a1 =>
    obtain ⟨d, -, h⟩ := withArg1_next h
    obtain ⟨u, hu, h⟩ := orRaise_next h
    obtain ⟨-, rfl⟩ := fetchWord_ok hu
    cases h
    exact ⟨rfl, rfl⟩
  | store a1 a2 =>
    obtain ⟨d, r, -, -, h⟩ := withArgs_next h
    obtain ⟨u, hu, h⟩ := orRaise_next h
    obtain ⟨-, rfl⟩ := memWrite_ok hu
    cases h
    exact ⟨rfl, rfl⟩
  | div a1 a2 =>
    obtain ⟨d, r, rfl, rfl, -⟩ := withArgs_next h
    rw [exec_div_fieldOf] at h
    cases h
    rw [diagAfter, fieldValue_fieldOf]
    split <;> exact ⟨rfl, rfl⟩
  | ifnz a1 a2 =>
    obtain ⟨c, r, rfl, rfl, -⟩ := withArgs_next h
    rw [exec_ifnz_fieldOf] at h
    cases h
    exact ⟨rfl, rfl⟩
  | not a1 a2 | lshift a1 a2 | rshift a1 a2 =>
    obtain ⟨d, r, -, -, rfl⟩ := unary_next h
    exact ⟨rfl, rfl⟩
  | add a1 a2 | mul a1 a2 | sub a1 a2 | and a1 a2 | or a1 a2 | bwc a1 a2 | bwd a1 a2 =>
    obtain ⟨d, r, -, -, rfl⟩ := binary_next h
    exact ⟨rfl, rfl⟩

/-- An instruction that ends without a fault leaves no fault in the status. -/
theorem statusAfter_ne_faulted (h : s.status = .running) : statusAfter i s ≠ .faulted f := by
  cases i <;> simp [statusAfter, h]

/-! The access an instruction makes -/

/-- The access of an instruction to the store, with its address (60_exceptions.md R89). -/
def accessOf : Instr → State → Option (Access × Word)
  | .load _ a2, s => some (.load, fieldValue s a2)
  | .loadc _, s => some (.loadcImm, s.pc)
  | .store a1 _, s => some (.store, fieldValue s a1)
  | _, _ => none

theorem accessOf_instrOf (op : BitVec 4) (a1 a2 : RegField) (s : State) :
    accessOf (instrOf op a1 a2) s =
      if op = 1 then some (.load, fieldValue s a2)
      else if op = 2 then some (.loadcImm, s.pc)
      else if op = 3 then some (.store, fieldValue s a1)
      else none := by
  obtain ⟨k⟩ := op
  fin_cases k <;> rfl

theorem exec_access_outside {acc : Access} {a : Word} (wf : i.wellFormed = true) (ha : accessOf i s = some (acc, a))
    (ho : OutsideStore s a) : exec i s = .fault (.addressOutOfRange acc a) := by
  cases i with
  | load a1 a2 =>
    obtain ⟨d, r, rfl, rfl⟩ := exists_fieldOf_pair wf rfl
    obtain ⟨fault, -, -⟩ := Proofs.accessOutsideTheStoreFaults d r s
    cases ha
    rw [fieldValue_fieldOf] at ho ⊢
    exact fault ho
  | loadc a1 =>
    obtain ⟨d, rfl⟩ := exists_fieldOf_of_wellFormed (a := a1) wf List.mem_cons_self
    obtain ⟨-, fault, -⟩ := Proofs.accessOutsideTheStoreFaults d d s
    cases ha
    exact fault ho
  | store a1 a2 =>
    obtain ⟨d, r, rfl, rfl⟩ := exists_fieldOf_pair wf rfl
    obtain ⟨-, -, fault⟩ := Proofs.accessOutsideTheStoreFaults d r s
    cases ha
    rw [fieldValue_fieldOf] at ho ⊢
    exact fault ho
  | _ => cases ha

/-- A well-formed instruction whose access, if it makes one, is not outside the store ends without a fault. -/
theorem exec_completes (wf : i.wellFormed = true)
    (inside : ∀ acc a, accessOf i s = some (acc, a) → ¬ OutsideStore s a) : ∃ t, exec i s = .next t := by
  obtain run | ⟨acc, a, -, ho, access⟩ := Proofs.wellFormedInstructionsRun i s wf
  · exact run
  · have ha : accessOf i s = some (acc, a) := by
      obtain ⟨d, r, rfl, rfl, rfl⟩ | ⟨d, rfl, rfl, rfl⟩ | ⟨d, r, rfl, rfl, rfl⟩ := access <;> rfl
    exact absurd ho (inside acc a ha)

/-! What a step comes to -/

theorem commit_answers {x : Result} (h : ∀ q, x ≠ .refused q) : ∃ t, commit s x = .next t := by
  cases x with
  | next t => exact ⟨t, rfl⟩
  | fault f => exact ⟨_, rfl⟩
  | refused q => exact absurd rfl (h q)

/-- A step that fetches an unrecognized word halts in the state after the fetch (40_cycle.md R62). -/
theorem step_unrecognized (running : s.status = .running) (hs : InStore s s.pc)
    (hw : decode (s.mem.read s.pc.toNat) = .error .unrecognized) :
    step s = .next (haltUnrecognized (fetched s)) := by
  rw [step_inside running hs, decodeAndRun, fetched_ir, hw]

/-- A fatal fault is latched in the state before the step (60_exceptions.md R90). -/
theorem step_of_fault (running : s.status = .running) (hi : FetchesInstr s i) (hx : exec i (fetched s) = .fault f) :
    step s = .next (takeFault f s) := by
  rw [step_fetchesInstr running hi, hx, commit]

theorem step_of_next (running : s.status = .running) (hi : FetchesInstr s i) (hx : exec i (fetched s) = .next t) :
    step s = .next t := by
  rw [step_fetchesInstr running hi, hx, commit]

/-- A step that ends with a fault latched changed nothing else but the `diag` port. -/
theorem step_faulted (h : step s = .next t) (ht : t.status = .faulted f) : t = takeFault f s := by
  obtain ⟨running, ⟨-, rfl⟩ | ⟨-, -, rfl⟩ | ⟨i, -, hx | ⟨g, -, rfl⟩⟩⟩ := step_next h
  · cases ht
    rfl
  · cases ht
  · obtain ⟨status, -⟩ := exec_status_diag hx
    exact absurd (status.symm.trans ht) (statusAfter_ne_faulted running)
  · cases ht
    rfl

end Sys2Proof.Machine

namespace Sys2Proof.Proofs

open Sys2Proof.Machine

/-- Settles O31: the outcome is the halt itself. -/
theorem haltResult : Obligations.HaltResult := fun s =>
  ⟨haltWith .op0 s, rfl, haltWith_status s _, fun r => haltWith_reg s r _, haltWith_pc s _, haltWith_ir s _,
    haltWith_cfg s _, haltWith_diag s _, fun _ => rfl⟩

/-- Settles O32: the checks of the used fields come first, arg1 before arg2. -/
theorem badFieldFaults : Obligations.BadFieldFaults := fun _ s =>
  ⟨fun _ _ used bad => exec_bad_arg1 used bad s, fun _ _ used good bad => exec_bad_arg2 used good bad s⟩

/-- Settles O35: the commit of an outcome is the match of the statement. -/
theorem stepRunsTheDecodedInstruction : Obligations.StepRunsTheDecodedInstruction := by
  intro s i running hi
  rw [step_fetchesInstr running hi]
  cases exec i (fetched s) <;> rfl

/-- Settles O36: while Running the fetch faults, or the word is unrecognized, or an instruction runs, which is never
refused. -/
theorem stepAcceptedExactlyWhileRunning : Obligations.StepAcceptedExactlyWhileRunning := by
  refine fun s => ⟨fun running => ?_, step_refused⟩
  by_cases hs : InStore s s.pc
  · cases hw : decode (s.mem.read s.pc.toNat) with
    | ok i =>
      rw [step_fetchesInstr running ⟨hs, hw⟩]
      exact commit_answers (exec_not_refused i _)
    | error => exact ⟨_, step_unrecognized running hs hw⟩
  · exact ⟨_, step_outside running hs⟩

/-- Settles O38: the halt with its event, in the state after the fetch. -/
theorem unrecognizedWordHalts : Obligations.UnrecognizedWordHalts := by
  intro s n running hn upper
  obtain rfl := hn.toNat_eq
  have run := step_unrecognized running hn.inStore (if_neg upper)
  exact ⟨_, run, rfl, rfl, rfl, rfl, fun _ => rfl, fun _ => rfl, rfl⟩

/-- Settles O40: such a step ends in the state before it with the fault latched. -/
theorem faultedStepKeepsNoWrite : Obligations.FaultedStepKeepsNoWrite := by
  intro s t f h ht
  obtain rfl := step_faulted h ht
  exact ⟨fun r => takeFault_reg s r f, fun _ => rfl, takeFault_pc s f, takeFault_ir s f, takeFault_cfg s f,
    takeFault_diag s f⟩

/-- Settles O46: the store leaves the PC of the fetch, so the next fetch reads the word it wrote. -/
theorem storeIsSeenByTheNextFetch : Obligations.StoreIsSeenByTheNextFetch := by
  intro s d r running hi address hs
  have names : NamesAddress (fetched s) ((fetched s).reg d) (s.pc + 1).toNat := by
    rw [fetched_reg, address]
    exact InStore.namesAddress (s := fetched s) hs
  obtain ⟨t, run, written, -, -, pc, ir, -, cfg, -⟩ := storeResult d r (fetched s) _ names
  have next : InStore t t.pc := by
    rw [InStore, pc, cfg]
    exact hs
  refine ⟨t, _, step_of_next running hi run, ir, fetchWord_inStore next, ?_⟩
  rw [pc]
  exact written

/-- Settles O37: the case split follows the list; each fault of the list is the first check its instruction fails, and an
instruction that passes them all completes. -/
theorem oneOutcomeInPriorityOrder : Obligations.OneOutcomeInPriorityOrder := by
  intro s running
  obtain ⟨t, step_t⟩ := (stepAcceptedExactlyWhileRunning s).1 running
  refine ⟨t, step_t, ?_⟩
  have ends {u : State} (h : step s = .next u) : t = u := Host.Outcome.next.inj (step_t.symm.trans h)
  intro w x1 x2
  by_cases outside : OutsideStore s s.pc
  · rw [if_pos outside, ends (step_outside running outside.not_inStore)]
    exact ⟨rfl, rfl⟩
  rw [if_neg outside]
  have inside : InStore s s.pc := (inStore_or_outsideStore s s.pc).resolve_right outside
  by_cases unrecognized : 4096 ≤ w.toNat
  · rw [if_pos unrecognized, ends (step_unrecognized running inside (decode_unrecognized_iff.2 unrecognized))]
    exact ⟨rfl, rfl⟩
  rw [if_neg unrecognized]
  have fetches : FetchesInstr s (instrOf (opcodeField w) (arg1Field w) (arg2Field w)) :=
    ⟨inside, if_pos (not_not.1 (mt upperBits_ne_zero_iff.1 unrecognized))⟩
  have used := usedFields_instrOf (opcodeField w) (arg1Field w) (arg2Field w)
  have faults {f : Fault} (hx : exec (instrOf (opcodeField w) (arg1Field w) (arg2Field w)) (fetched s) = .fault f) :
      t.status = .faulted f ∧ t.diag = none := by
    rw [ends (step_of_fault running fetches hx)]
    exact ⟨rfl, rfl⟩
  by_cases halt : opcodeField w = 0
  · rw [if_pos halt]
    rw [halt] at fetches
    rw [ends (step_of_next running fetches rfl)]
    exact ⟨rfl, rfl⟩
  rw [if_neg halt] at used ⊢
  by_cases arg1 : 8 ≤ (arg1Field w).toNat
  · rw [if_pos arg1]
    exact faults (exec_bad_arg1 used arg1 _)
  rw [if_neg arg1]
  by_cases arg2 : opcodeField w ≠ 2 ∧ 8 ≤ (arg2Field w).toNat
  · rw [if_pos arg2]
    obtain ⟨two, bad⟩ := arg2
    rw [if_neg two] at used
    exact faults (exec_bad_arg2 used (Nat.not_le.1 arg1) bad _)
  rw [if_neg arg2]
  have wf : (instrOf (opcodeField w) (arg1Field w) (arg2Field w)).wellFormed = true :=
    wellFormed_instrOf_iff.2 (.inr ⟨Nat.not_le.1 arg1, (not_and_or.1 arg2).imp not_not.1 Nat.not_le.1⟩)
  by_cases load : opcodeField w = 1 ∧ OutsideStore s x2
  · rw [if_pos load]
    obtain ⟨opcode, ho⟩ := load
    exact faults (exec_access_outside wf (by rw [opcode]; rfl) ho)
  rw [if_neg load]
  by_cases loadc : opcodeField w = 2 ∧ OutsideStore s (s.pc + 1)
  · rw [if_pos loadc]
    obtain ⟨opcode, ho⟩ := loadc
    exact faults (exec_access_outside wf (by rw [opcode]; rfl) ho)
  rw [if_neg loadc]
  by_cases store : opcodeField w = 3 ∧ OutsideStore s x1
  · rw [if_pos store]
    obtain ⟨opcode, ho⟩ := store
    exact faults (exec_access_outside wf (by rw [opcode]; rfl) ho)
  rw [if_neg store]
  obtain ⟨u, run⟩ := exec_completes (s := fetched s) wf <| by
    intro acc a ha ho
    rw [accessOf_instrOf] at ha
    split_ifs at ha with is1 is2 is3 <;> cases ha
    · exact load ⟨is1, ho⟩
    · exact loadc ⟨is2, ho⟩
    · exact store ⟨is3, ho⟩
  obtain ⟨status, diag⟩ := exec_status_diag run
  rw [statusAfter_instrOf, if_neg halt] at status
  rw [diagAfter_instrOf] at diag
  rw [ends (step_of_next running fetches run)]
  exact ⟨status.trans running, diag⟩

end Sys2Proof.Proofs
end

section
/-! PROOFS of the statements about the reset, the boot and the requests of the host (10_state.md R28, 30_encoding.md R56,
70_reset_and_hazards.md): what a reset leaves and what the loader places, then each statement. -/

namespace Sys2Proof.Machine

/-! Laws of the reset (70_reset_and_hazards.md R104) -/

@[simp] theorem resetBlock_reg (s : State) (r : Reg) : (resetBlock s).reg r = 0 :=
  Vector.getElem_replicate r.isLt

@[simp] theorem resetBlock_pc (s : State) : (resetBlock s).pc = s.cfg.base := rfl
@[simp] theorem resetBlock_ir (s : State) : (resetBlock s).ir = 0 := rfl
@[simp] theorem resetBlock_diag (s : State) : (resetBlock s).diag = none := rfl

/-- Of the state before it, a reset depends on the parameters and the store alone. -/
theorem resetBlock_congr {s t : State} (hc : s.cfg = t.cfg) (hm : s.mem = t.mem) : resetBlock s = resetBlock t := by
  rw [resetBlock, resetBlock, hc, hm]

/-! Laws of the loader and the boot (30_encoding.md R56, 70_reset_and_hazards.md R106) -/

/-- The store the boot leaves: INIT_MEM everywhere, then the image from address 0. -/
def bootMem (capacity : Nat) (initMem : Nat → Word) (words : List Word) : Memory :=
  (Memory.ofFn capacity initMem).writeAll 0 words

variable {cfg : Config} {initMem : Nat → Word} {words : List Word}

theorem boot_ok (h : words.length ≤ cfg.capacity) :
    boot cfg initMem words =
      .ok (resetBlock { State.reset with cfg := cfg, mem := bootMem cfg.capacity initMem words }) := by
  rw [boot, loadImage, if_pos (show words.length ≤ (createStore cfg initMem).cfg.capacity from h)]
  rfl

theorem boot_tooLarge (h : cfg.capacity < words.length) : boot cfg initMem words = .error .imageTooLarge := by
  rw [boot, loadImage, if_neg (show ¬ words.length ≤ (createStore cfg initMem).cfg.capacity from Nat.not_le.2 h)]
  rfl

theorem read_bootMem {a : Nat} (h : a < cfg.capacity) :
    (bootMem cfg.capacity initMem words).read a = if h : a < words.length then words[a] else initMem a := by
  rw [bootMem, Memory.read_writeAll, Memory.read_ofFn _ _ _ h]
  simp

theorem bootMem_wf : (bootMem cfg.capacity initMem words).wf :=
  Memory.writeAll_wf _ _ _ (Memory.ofFn_wf _ _)

theorem bootMem_within (h : words.length ≤ cfg.capacity) :
    (bootMem cfg.capacity initMem words).within cfg.capacity :=
  Memory.writeAll_within _ _ _ _ (Memory.ofFn_within _ _) (by omega)

end Sys2Proof.Machine

namespace Sys2Proof.Proofs

open Sys2Proof.Machine

/-- Settles O14: the image is written over INIT_MEM, and the reset that ends the boot leaves the store. -/
theorem bootPlacesTheImage : Obligations.BootPlacesTheImage := by
  refine fun cfg initMem words => ⟨fun fits => ?_, boot_tooLarge⟩
  exact ⟨_, boot_ok fits, fun a ha => read_bootMem ha, resetBlock_reg _, rfl, rfl, rfl, rfl,
    fun valid => ⟨valid, bootMem_wf, bootMem_within fits⟩⟩

/-- Settles O48: the invariant speaks of the parameters and the store, which a reset leaves. -/
theorem resetMeetsTheInvariant : Obligations.ResetMeetsTheInvariant :=
  ⟨⟨by decide, State.reset_mem_wf, nofun⟩, fun _ inv => inv⟩

/-- Settles O50: State.reset is the reset of itself, and a reset sees only the parameters and the store. -/
theorem resetRequest : Obligations.ResetRequest := fun s =>
  ⟨resetBlock s, rfl, resetBlock_reg s, resetBlock_pc s, resetBlock_ir s, resetBlock_status s, resetBlock_diag s,
    fun _ => rfl, resetBlock_cfg s, fun hc hm => resetBlock_congr (t := State.reset) hc hm⟩

/-- Settles O51: of the requests that are no reset, a step is refused, a load_word writes at most the store, and a view
changes nothing. -/
theorem stoppedUntilReset : Obligations.StoppedUntilReset := by
  refine fun s q stopped => ⟨fun noReset => ?_, resetBlock_status s⟩
  cases q with
  | reset => exact absurd rfl noReset
  | loadWord a v =>
    rw [serve]
    split
    · next hw =>
      obtain ⟨-, rfl⟩ := memWrite_ok hw
      exact ⟨rfl, fun _ => rfl, rfl, rfl⟩
    · exact ⟨rfl, fun _ => rfl, rfl, rfl⟩
  | step =>
    rw [serve, step_refused stopped]
    exact ⟨rfl, fun _ => rfl, rfl, rfl⟩
  | inspect | snapshot => exact ⟨rfl, fun _ => rfl, rfl, rfl⟩

/-- Settles O53: load_word is one write of the store, which replaces the named word or raises outside. -/
theorem loadWordRequest : Obligations.LoadWordRequest := by
  intro s a v
  obtain ⟨inside, outside⟩ := writeReplacesOneWordOrFaults .store a v s
  refine ⟨fun n hn => ?_, fun ho => ?_⟩
  · obtain ⟨t, write, replaced⟩ := inside n hn
    exact ⟨t, by rw [serve, write], replaced⟩
  · rw [serve, outside ho]

end Sys2Proof.Proofs
end
